-- ==== Sys2Proof/Word.lean ====
section
/-! DEFINITION. The word types of the stream cipher engine (00_scope.md R6, R7; 30_encoding.md R60, R63). -/

namespace Sys2Proof

/-- Every data value the engine holds or moves: 8 bits, bit 0 the least significant (R6, R8). -/
abbrev Byte := BitVec 8

/-- The 4-bit `idx` field of a command word, 0 to 15 (R62, R69). -/
abbrev BitIndex := BitVec 4

/-- One command: a 32-bit word of format `C` (R60). -/
abbrev CommandWord := BitVec 32

/-- One response: `{STATUS, data}`, 16 bits (R63). -/
abbrev ResponseWord := BitVec 16

end Sys2Proof
end

