-- ==== Sys2Proof/Config.lean ====
section
/-! DEFINITION. What an implementation of the engine fixes and the spec leaves open (00_scope.md R7). None of
these constants has a body, so no proof can see a value of one: a theorem holds whatever the implementation fixes. -/

namespace Sys2Proof.Config

/-- `getbit_oob(b, idx)`: the data byte GETBIT answers for an index from 8 to 15 (R7, R110, D10, U2).
DEDUCED: the spec names it as a function of the byte and the index alone (R110), and R11 makes the bit primitives
functions of their arguments. Log entry 3. -/
opaque getbitOob (b : Byte) (idx : BitIndex) : Byte

/-- How many cycles beyond the first the `k`-th command takes. No rule depends on it (R179, D21). Log entry 10. -/
opaque extraCycles (k : Nat) : Nat

/-- `P_LATENCY`: the cycles from accepting the `k`-th command to its response, at least 1 and finite (R7, R179).
The model has no time, so nothing reads it. Log entry 10. -/
def latency (k : Nat) : Nat := extraCycles k + 1

/-- `P_PORT_BASE`: the address at which a platform maps the channels, if it maps them at all (R7, R41, D19).
The engine has no address space, so nothing reads it. Log entry 11. -/
opaque portBase : Option Nat

end Sys2Proof.Config
end

