-- ==== Sys2Proof/Machine/Operands.lean ====
section
/-! DEFINITION. The operand forms of the engine: every operand is a byte or a bit index taken from its field as it
stands (30_encoding.md R62), so what can be done with one is bit access and the increment. The bit primitives are
those of 44_bit_access.md, which counter evolution and the byte mixer are built from (R114). -/

namespace Sys2Proof.Machine

/-- `b[i] = (b >> i) & 1` (R8). Used with `i <= 7` only. -/
def getBit (b : Byte) (i : Nat) : Bool := b.getLsbD i

/-- `zext_8` of one bit (R9). -/
def zextBit (v : Bool) : Byte := if v then 0x01 else 0x00

/-- `SetBit(b, i)`: bit `i` forced to 1; an index outside 0 to 7 leaves the byte unchanged (R111). -/
def setBit (b : Byte) (i : Nat) : Byte := if i ≤ 7 then b ||| (0x01#8 <<< i) else b

/-- `ClearBit(b, i)`: bit `i` forced to 0; an index outside 0 to 7 leaves the byte unchanged (R112). -/
def clearBit (b : Byte) (i : Nat) : Byte := if i ≤ 7 then b &&& ~~~(0x01#8 <<< i) else b

/-- The assignment `b[i] <- v` of the pseudocode (R9). -/
def putBit (b : Byte) (i : Nat) (v : Bool) : Byte := if v then setBit b i else clearBit b i

/-- The bit positions of a byte, in the order the pseudocode visits them. -/
def bitPositions : List Nat := [0, 1, 2, 3, 4, 5, 6, 7]

/-- `rev8(b)[i] = b[7-i]` (R9). -/
def rev8 (b : Byte) : Byte :=
  bitPositions.foldl (fun out i => putBit out i (getBit b (7 - i))) 0x00

/-- `(v + 1) mod 256`, the engine's only arithmetic (R6, R9). -/
def increment (v : Byte) : Byte := v + 1

end Sys2Proof.Machine
end

