-- ==== Sys2Proof/Machine/State.lean ====
section
/-! DEFINITION. The state of the engine as plain data, the reasons a step can stop, and the state after reset
(10_state.md). -/

namespace Sys2Proof.Machine

/-- The five registers that hold cipher or stream state (10_state.md R20). STATUS is the sixth. -/
inductive RegName where
  | iv
  | key
  | ctr
  | rctr
  | chain
  deriving DecidableEq, Repr

/-- One 8-bit register and whether it holds a value. R34 and R35: a register holds "either "no value" or a byte";
`written` false is "no value". The byte behind that mark can be read by no operation of the model. Log entry 1. -/
structure Reg where
  byte : Byte
  written : Bool
  deriving DecidableEq, Repr

/-- The value of a register as R35 gives it: none for "no value". -/
def Reg.value (r : Reg) : Option Byte := if r.written then some r.byte else none

/-- A register that holds the byte `b`. -/
def Reg.holding (b : Byte) : Reg := ⟨b, true⟩

/-- A register that has "no value" (R34). DESIGN CHOICE: the byte behind the mark is 0x00. Log entry 1. -/
def Reg.noValue : Reg := ⟨0x00, false⟩

/-- The four defined fields of STATUS (R30). Bits 7:4 are hardwired 0 and so are no storage (R33); the register as a
byte is `Status.byte` in Flags.lean. Log entry 8. -/
structure Status where
  /-- KEYED: IV, KEY and CTR hold values written by INIT. -/
  keyed : Bool
  /-- OPEN: a stream is open. -/
  opened : Bool
  /-- PERR, sticky: a ProtocolError has occurred since reset. -/
  perr : Bool
  /-- ILL, sticky: an IllegalCommand has occurred since reset. -/
  ill : Bool
  deriving DecidableEq, Repr

/-- The error codes of 60_exceptions.md R152. -/
inductive ErrorCode where
  | illegalCommand
  | noKey
  | noStream
  deriving DecidableEq, Repr

/-- One entry of the fault record: code, command word, index of the command in the run (R152). -/
structure FaultEntry where
  code : ErrorCode
  word : CommandWord
  index : Nat
  deriving DecidableEq, Repr

/-- What the outside delivers to the engine (20_memory.md R45, R46; 70_reset_and_hazards.md R170). -/
inductive Input where
  /-- A command word on the command channel. -/
  | command (w : CommandWord)
  /-- Reset is asserted. It may cut off a command in progress, which is then discarded without a response (R46). -/
  | reset (inProgress : Option CommandWord)
  /-- A command that arrives while reset is asserted: the model gives it no meaning (U6). -/
  | commandDuringReset (w : CommandWord)
  deriving DecidableEq, Repr

/-- Why the machine stops. -/
inductive Fault where
  /-- A command read a register that has "no value" (R35, U3). Raised by `withReg`. Safe: R35 names this fault, and
  no command reaches it in a state that meets the gating of R35. Log entry 2. -/
  | unwrittenRead (r : RegName)
  deriving DecidableEq, Repr

/-- Why a step has no meaning. -/
inductive Refusal where
  /-- The instruction has no meaning in this model yet. Raised by `exec`; safe. No arm raises it. -/
  | notModelled (mnemonic : String)
  /-- More than one host drives the command channel (R52, U1). Raised by `step`; safe: R52 has a model refuse it. -/
  | severalHosts
  /-- A command word arrived while reset was asserted (U6). Raised by `step`; safe: U6 has a model refuse it. -/
  | commandDuringReset
  deriving DecidableEq, Repr

/-- The engine, its two channels and the fault record of the run. -/
structure State where
  /-- IV, the initial chaining seed (R20, R22). -/
  iv : Reg
  /-- KEY, the mixing secret (R20, R22). -/
  key : Reg
  /-- CTR, the counter seed (R20, R22). -/
  ctr : Reg
  /-- RCTR, the working keystream counter of the open stream (R25). -/
  rctr : Reg
  /-- CHAIN, the working chain byte of the open stream (R26). -/
  chain : Reg
  /-- STATUS (R30). -/
  status : Status
  /-- What the command channel and the reset input will deliver, the next first (R45). -/
  inbox : List Input
  /-- The response words delivered, the first first (R45, R63). -/
  responses : List ResponseWord
  /-- The fault record, the first entry first (R152). -/
  faults : List FaultEntry
  /-- The index in the run of the next command, counting the first command after reset as 0 (R152). -/
  index : Nat
  /-- How many hosts drive the command channel: the model's own field (R52). Log entry 7. -/
  hosts : Nat
  deriving DecidableEq, Repr

/-- The state right after reset: STATUS 0x00, the other registers with no value (R34, R170), nothing delivered in
either direction, an empty fault record (R180, L3), one host (R52). -/
def State.reset : State where
  iv := .noValue
  key := .noValue
  ctr := .noValue
  rctr := .noValue
  chain := .noValue
  status := ⟨false, false, false, false⟩
  inbox := []
  responses := []
  faults := []
  index := 0
  hosts := 1

end Sys2Proof.Machine
end

