-- ==== Sys2Proof/Machine/Flags.lean ====
section
/-! DEFINITION. STATUS: its value as a byte and every way a command changes it (10_state.md R30 to R33). -/

namespace Sys2Proof.Machine

/-- STATUS as the host reads it: KEYED bit 0, OPEN bit 1, PERR bit 2, ILL bit 3, bits 7:4 zero (R30, R33). -/
def Status.byte (st : Status) : Byte :=
  0#4 ++ BitVec.ofBool st.ill ++ BitVec.ofBool st.perr ++ BitVec.ofBool st.opened ++ BitVec.ofBool st.keyed

/-- What INIT does to STATUS: KEYED <- 1, OPEN <- 0 (R31, R80). -/
def Status.afterInit (st : Status) : Status := { st with keyed := true, opened := false }

/-- What a BEGIN that raises no error does to STATUS: OPEN <- 1 (R31, R120). -/
def Status.afterBegin (st : Status) : Status := { st with opened := true }

/-- What an error does to STATUS: its sticky bit is set (R32, R152). -/
def Status.afterError (st : Status) : ErrorCode → Status
  | .illegalCommand => { st with ill := true }
  | .noKey => { st with perr := true }
  | .noStream => { st with perr := true }

/-- The code of an error as a number (R152). -/
def ErrorCode.number : ErrorCode → Nat
  | .illegalCommand => 1
  | .noKey => 2
  | .noStream => 3

end Sys2Proof.Machine
end

