-- ==== Sys2Proof/Machine/Ops.lean ====
section
/-! DEFINITION. The named operations every meaning is built from: reading and writing a register, answering,
raising an error, taking the next input, reset.

The engine has no memory, so there is no memory operation (20_memory.md R40). It has no trap entry and no return from
one (60_exceptions.md R156, R157): raising an error is its only exceptional event, and it is `raiseError`. -/

namespace Sys2Proof.Machine

/-- What a step answers. -/
abbrev Result := Host.Outcome State Fault Refusal

/-! ## Registers -/

/-- The register of a name (R20). -/
def State.reg (s : State) : RegName → Reg
  | .iv => s.iv
  | .key => s.key
  | .ctr => s.ctr
  | .rctr => s.rctr
  | .chain => s.chain

/-- `R <- b` (R9): the register holds the byte `b`. -/
def State.write (s : State) (r : RegName) (b : Byte) : State :=
  match r with
  | .iv => { s with iv := .holding b }
  | .key => { s with key := .holding b }
  | .ctr => { s with ctr := .holding b }
  | .rctr => { s with rctr := .holding b }
  | .chain => { s with chain := .holding b }

/-- Read a register and go on with its byte; a register with no value is the fault `UnwrittenRead` (R35). -/
def withReg (s : State) (r : RegName) (k : Byte → Result) : Result :=
  match (s.reg r).value with
  | some b => k b
  | none => .fault (.unwrittenRead r)

/-! ## Answering and raising -/

/-- `respond(d)`: deliver `{STATUS, d}` with STATUS as it stands after the command (R63). Every command answers
exactly once (R45), so this also counts the command (R152). -/
def respond (d : Byte) (s : State) : State :=
  { s with responses := s.responses ++ [s.status.byte ++ d], index := s.index + 1 }

/-- An error event: the sticky bit of `code` is set, the fault record gets its entry, the response carries 0x00, and
nothing else changes (R150, R151, R152, R156). -/
def raiseError (code : ErrorCode) (w : CommandWord) (s : State) : State :=
  respond 0x00 { s with status := s.status.afterError code, faults := s.faults ++ [⟨code, w, s.index⟩] }

/-! ## The outside -/

/-- The state in which the inputs still to come are `rest`. -/
def State.awaiting (s : State) (rest : List Input) : State := { s with inbox := rest }

/-- Reset: every register goes to its reset state and the index starts again at 0; a command in progress gets no
response (R46, R170, R152). What was delivered to the host stays delivered, what is still to come stays to come, and
the fault record is never cleared (D16). Log entry 5. -/
def applyReset (s : State) : State :=
  { State.reset with inbox := s.inbox, responses := s.responses, faults := s.faults, hosts := s.hosts }

end Sys2Proof.Machine
end

