-- ==== Sys2Proof/Machine/BitAccess.lean ====
section
/-! DEFINITION. The bit-access commands GETBIT, SETBIT and CLRBIT (44_bit_access.md). -/

namespace Sys2Proof.Machine

/-- The data byte of GETBIT: the bit for an index from 0 to 7, the open parameter `getbit_oob` for one from 8 to 15
(R110, D10). Log entry 3. -/
def getbitData (b : Byte) (i : BitIndex) : Byte :=
  if i.toNat ≤ 7 then zextBit (getBit b i.toNat) else Config.getbitOob b i

/-- GETBIT (R110). -/
def execGetbit (b : Byte) (i : BitIndex) (s : State) : Result := .next (respond (getbitData b i) s)

/-- SETBIT (R111). -/
def execSetbit (b : Byte) (i : BitIndex) (s : State) : Result := .next (respond (setBit b i.toNat) s)

/-- CLRBIT (R112). -/
def execClrbit (b : Byte) (i : BitIndex) (s : State) : Result := .next (respond (clearBit b i.toNat) s)

end Sys2Proof.Machine
end

