-- ==== Sys2Proof/Machine/CipherState.lean ====
section
/-! DEFINITION. Cipher state loading: INIT (41_cipher_state.md). -/

namespace Sys2Proof.Machine

/-- INIT (R80): IV, KEY and CTR are loaded, KEYED is set, an open stream is closed. No error in any state. -/
def execInit (iv key ctr : Byte) (s : State) : Result :=
  let loaded := ((s.write .iv iv).write .key key).write .ctr ctr
  .next (respond 0x00 { loaded with status := loaded.status.afterInit })

end Sys2Proof.Machine
end

