-- ==== Sys2Proof/Machine/StatusAccess.lean ====
section
/-! DEFINITION. Status access: RDSTAT (46_status.md). -/

namespace Sys2Proof.Machine

/-- RDSTAT (R140): the data byte is STATUS, and nothing changes. -/
def execRdstat (s : State) : Result := .next (respond s.status.byte s)

end Sys2Proof.Machine
end

