-- ==== Sys2Proof/Syntax.lean ====
section
/-! DEFINITION. The ten commands of the SCE command set, version 1: one constructor per row of
spec/opcode_table.json, with the operands in the source's argument order (30_encoding.md R65, R70). -/

namespace Sys2Proof

/-- A command. Its operand types are the widths of the fields of format `C` (R61, R62), so every value of this type
is a command the encoding admits; what can be ill formed is a command WORD (WellFormed.lean) or an assembler line
(Machine/Assembler.lean). -/
inductive Instr where
  /-- `INIT iv, key, ctr`: load the cipher state (R80). -/
  | init (iv key ctr : Byte)
  /-- `BEGIN`: open a stream (R120). -/
  | begin
  /-- `ENCB x`: encrypt one byte of the open stream (R121). -/
  | encb (x : Byte)
  /-- `DECB y`: decrypt one byte of the open stream (R122). -/
  | decb (y : Byte)
  /-- `NKC ctr, key`: evaluate counter evolution alone (R92). -/
  | nkc (ctr key : Byte)
  /-- `MIX x, ctr, chain`: evaluate the byte mixer alone (R102). -/
  | mix (x ctr chain : Byte)
  /-- `GETBIT b, i`: read one bit (R110). -/
  | getbit (b : Byte) (i : BitIndex)
  /-- `SETBIT b, i`: force one bit to 1 (R111). -/
  | setbit (b : Byte) (i : BitIndex)
  /-- `CLRBIT b, i`: force one bit to 0 (R112). -/
  | clrbit (b : Byte) (i : BitIndex)
  /-- `RDSTAT`: read STATUS (R140). -/
  | rdstat
  deriving DecidableEq, Repr

end Sys2Proof
end

