-- ==== Sys2Proof/Decode.lean ====
section
/-! DEFINITION. The fields of a command word, the decoder and the encoder (30_encoding.md R60 to R69). -/

namespace Sys2Proof

/-! ## Fields of format `C` (R61, R62) -/

/-- `op = word[31:28]`. -/
def opField (w : CommandWord) : BitVec 4 := w.extractLsb' 28 4

/-- `idx = word[27:24]`. -/
def idxField (w : CommandWord) : BitIndex := w.extractLsb' 24 4

/-- `a = word[23:16]`. -/
def aField (w : CommandWord) : Byte := w.extractLsb' 16 8

/-- `b = word[15:8]`. -/
def bField (w : CommandWord) : Byte := w.extractLsb' 8 8

/-- `c = word[7:0]`. -/
def cField (w : CommandWord) : Byte := w.extractLsb' 0 8

/-- A word of format `C` from its five fields (R61). -/
def formatC (op : BitVec 4) (idx : BitIndex) (a b c : Byte) : CommandWord :=
  op ++ idx ++ a ++ b ++ c

/-! ## The opcode map (R65) -/

/-- One row of the opcode map. A word selects the row exactly when `(word & mask) == pattern`; the operands come
from the word's fields (R65, R68). -/
structure OpcodeRow where
  mnemonic : String
  pattern : CommandWord
  mask : CommandWord
  operands : BitIndex → Byte → Byte → Byte → Instr

/-- `(word & mask) == match` (R65). -/
def OpcodeRow.selects (r : OpcodeRow) (w : CommandWord) : Bool := w &&& r.mask == r.pattern

/-- The command a word of this row stands for (R62, R68). -/
def OpcodeRow.read (r : OpcodeRow) (w : CommandWord) : Instr :=
  r.operands (idxField w) (aField w) (bField w) (cField w)

/-- The ten rows, in the order R68 tries them. -/
def opcodeRows : List OpcodeRow :=
  [ ⟨"INIT",   0x10000000, 0xFF000000, fun _ a b c => .init a b c⟩,
    ⟨"BEGIN",  0x20000000, 0xFFFFFFFF, fun _ _ _ _ => .begin⟩,
    ⟨"ENCB",   0x30000000, 0xFFFFFF00, fun _ _ _ c => .encb c⟩,
    ⟨"DECB",   0x40000000, 0xFFFFFF00, fun _ _ _ c => .decb c⟩,
    ⟨"NKC",    0x50000000, 0xFF0000FF, fun _ a b _ => .nkc a b⟩,
    ⟨"MIX",    0x60000000, 0xFF000000, fun _ a b c => .mix a b c⟩,
    ⟨"GETBIT", 0x70000000, 0xF0FFFF00, fun i _ _ c => .getbit c i⟩,
    ⟨"SETBIT", 0x80000000, 0xF0FFFF00, fun i _ _ c => .setbit c i⟩,
    ⟨"CLRBIT", 0x90000000, 0xF0FFFF00, fun i _ _ c => .clrbit c i⟩,
    ⟨"RDSTAT", 0xA0000000, 0xFFFFFFFF, fun _ _ _ _ => .rdstat⟩ ]

/-! ## The decoder (R66 to R68) -/

/-- Why a word is illegal (R150). The engine does not tell the two apart: the names are the model's. Log entry 12. -/
inductive IllegalReason where
  /-- Opcode 0x0 or 0xB to 0xF (R67). -/
  | reservedOpcode
  /-- A valid opcode with a nonzero bit in a should-be-zero field (R66). -/
  | sbzNonzero
  deriving DecidableEq, Repr

/-- What a word is: a command, or illegal for a named reason (R68). -/
inductive Decoded where
  | legal (i : Instr)
  | illegal (r : IllegalReason)
  deriving DecidableEq, Repr

/-- The opcodes that no row of R65 has: 0x0 and 0xB to 0xF (R67). -/
def isReservedOpcode (op : BitVec 4) : Bool := op == 0 || decide (0xB ≤ op)

/-- The decoder, total over all 2^32 words (R68). -/
def decode (w : CommandWord) : Decoded :=
  match opcodeRows.find? (fun r => r.selects w) with
  | some r => .legal (r.read w)
  | none => if isReservedOpcode (opField w) then .illegal .reservedOpcode else .illegal .sbzNonzero

/-- The command of a word, none where the word is illegal. -/
def Decoded.instr? : Decoded → Option Instr
  | .legal i => some i
  | .illegal _ => none

/-- A word of `nbits` bits, every bit of the instruction above them 0. A command is one 32-bit word that crosses the
channel whole, so there is no byte order to lay out (R43, R60). Log entry 4. -/
def tableWord (nbits w : Nat) : CommandWord := (BitVec.ofNat nbits w).setWidth 32

/-- What the decoder reads from the word `w` of the opcode table. -/
def decodeTableWord (nbits w : Nat) : Option Instr := (decode (tableWord nbits w)).instr?

/-! ## The encoder (R61, R65) -/

/-- The word of a command: its opcode, its operands in their fields, zero in every field it does not use. -/
def encode : Instr → CommandWord
  | .init iv key ctr => formatC 0x1 0 iv key ctr
  | .begin => formatC 0x2 0 0 0 0
  | .encb x => formatC 0x3 0 0 0 x
  | .decb y => formatC 0x4 0 0 0 y
  | .nkc ctr key => formatC 0x5 0 ctr key 0
  | .mix x ctr chain => formatC 0x6 0 x ctr chain
  | .getbit b i => formatC 0x7 i 0 0 b
  | .setbit b i => formatC 0x8 i 0 0 b
  | .clrbit b i => formatC 0x9 i 0 0 b
  | .rdstat => formatC 0xA 0 0 0 0

end Sys2Proof
end

