-- ==== Sys2Proof/Machine/ByteMixer.lean ====
section
/-! DEFINITION. The byte mixer: the function Mix and the command MIX (43_byte_mixer.md). -/

namespace Sys2Proof.Machine

/-- The chain bit selected at position `i`: bit `i` of the chain byte where the counter's bit is 1, else its mirror
bit `7 - i` (R100, R101). -/
def chainBit (ctr chain : Byte) (i : Nat) : Bool :=
  if getBit ctr i then getBit chain i else getBit chain (7 - i)

/-- `Mix(x, ctr, chain)` (R100, R101). -/
def mixByte (x ctr chain : Byte) : Byte :=
  bitPositions.foldl (fun y i => putBit y i (getBit x i ^^ chainBit ctr chain i)) 0x00

/-- MIX (R102): answers the function's value; no register is read or written. -/
def execMix (x ctr chain : Byte) (s : State) : Result := .next (respond (mixByte x ctr chain) s)

end Sys2Proof.Machine
end

