-- ==== Sys2Proof/Machine/CounterEvolution.lean ====
section
/-! DEFINITION. Counter evolution: the function NextKeystreamCounter and the command NKC
(42_counter_evolution.md). -/

namespace Sys2Proof.Machine

/-- The bit indices counter evolution visits: every second one, from 0 for an even counter and from 1 for an odd
one (R90, R91). -/
def visitedBits (ctr : Byte) : List Nat := if getBit ctr 0 then [1, 3, 5, 7] else [0, 2, 4, 6]

/-- `NextKeystreamCounter(ctr, key)`: at each visited index the XOR of the two bits, elsewhere the counter's bit
(R90, R91). -/
def nextKeystreamCounter (ctr key : Byte) : Byte :=
  (visitedBits ctr).foldl (fun out i => putBit out i (getBit ctr i ^^ getBit key i)) ctr

/-- NKC (R92): answers the function's value; no register is read or written. -/
def execNkc (ctr key : Byte) (s : State) : Result := .next (respond (nextKeystreamCounter ctr key) s)

end Sys2Proof.Machine
end

