-- ==== Sys2Proof/Machine/StreamDriver.lean ====
section
/-! DEFINITION. The stream driver: BEGIN, ENCB and DECB (45_stream_driver.md). -/

namespace Sys2Proof.Machine

/-- BEGIN (R120): without a key, ProtocolError(NoKey); else RCTR and CHAIN are loaded from CTR, KEY and IV and the
stream is open. -/
def execBegin (s : State) : Result :=
  if s.status.keyed then
    withReg s .ctr fun ctr =>
    withReg s .key fun key =>
    withReg s .iv fun iv =>
      let started := (s.write .rctr (nextKeystreamCounter ctr key)).write .chain iv
      .next (respond 0x00 { started with status := started.status.afterBegin })
  else .next (raiseError .noKey (encode .begin) s)

/-- One byte of a stream (R121, R122). ENCB and DECB differ only in the byte that becomes CHAIN (R123): `nextChain`
gives it from the output byte. `w` is the command's word, for the fault record. -/
def streamByte (w : CommandWord) (input : Byte) (nextChain : Byte → Byte) (s : State) : Result :=
  if s.status.opened then
    withReg s .rctr fun rctr =>
    withReg s .chain fun chain =>
    withReg s .key fun key =>
      let output := mixByte input rctr chain
      let advanced := (s.write .chain (nextChain output)).write .rctr (nextKeystreamCounter (increment rctr) key)
      .next (respond output advanced)
  else .next (raiseError .noStream w s)

/-- ENCB (R121): the OUTPUT byte becomes CHAIN. -/
def execEncb (x : Byte) (s : State) : Result := streamByte (encode (.encb x)) x (fun output => output) s

/-- DECB (R122): the INPUT byte becomes CHAIN. -/
def execDecb (y : Byte) (s : State) : Result := streamByte (encode (.decb y)) y (fun _ => y) s

end Sys2Proof.Machine
end

