-- ==== Sys2Proof/Machine/Dispatch.lean ====
section
/-! DEFINITION. One arm per command: its meaning (30_encoding.md R65). -/

namespace Sys2Proof.Machine

def exec (i : Instr) (s : State) : Host.Outcome State Fault Refusal :=
  match i with
  | .init iv key ctr => Sys2Proof.Machine.execInit iv key ctr s
  | .begin => Sys2Proof.Machine.execBegin s
  | .encb x => Sys2Proof.Machine.execEncb x s
  | .decb y => Sys2Proof.Machine.execDecb y s
  | .nkc ctr key => Sys2Proof.Machine.execNkc ctr key s
  | .mix x ctr chain => Sys2Proof.Machine.execMix x ctr chain s
  | .getbit b j => Sys2Proof.Machine.execGetbit b j s
  | .setbit b j => Sys2Proof.Machine.execSetbit b j s
  | .clrbit b j => Sys2Proof.Machine.execClrbit b j s
  | .rdstat => Sys2Proof.Machine.execRdstat s

end Sys2Proof.Machine
end

