-- ==== Sys2Proof/Machine/Sequencer.lean ====
section
/-! DEFINITION. The command sequencer: what one input of the outside does (20_memory.md R45, R46). -/

namespace Sys2Proof.Machine

/-- What a word on the command channel does: the command it decodes to, or IllegalCommand (R68, R150). Decoding
comes before every other check (R155). -/
def runWord (w : CommandWord) (s : State) : Result :=
  match decode w with
  | .legal i => exec i s
  | .illegal _ => .next (raiseError .illegalCommand w s)

/-- Take the next input. With nothing delivered the engine waits and nothing changes (log entry 4). A configuration
with more than one host is refused (R52), and so is a command that arrives during reset (U6). -/
def takeInput (s : State) : Result :=
  if 1 < s.hosts then .refused .severalHosts
  else
    match s.inbox with
    | [] => .next s
    | .command w :: rest => runWord w (s.awaiting rest)
    | .reset _ :: rest => .next (applyReset (s.awaiting rest))
    | .commandDuringReset _ :: _ => .refused .commandDuringReset

/-- The word `w` of the opcode table delivered as the next command, by the one host a command needs (R45, R52). -/
def deliverNext (s : State) (nbits w : Nat) : State :=
  { s with inbox := .command (tableWord nbits w) :: s.inbox, hosts := 1 }

end Sys2Proof.Machine
end

