-- ==== Sys2Proof/Machine/Step.lean ====
section
/-! DEFINITION. One step of the engine (20_memory.md R45). -/

namespace Sys2Proof.Machine

/-- One step: the next input of the outside, taken whole (R45, R46). -/
def step (s : State) : Host.Outcome State Fault Refusal := takeInput s

/-- `s` with the word `w` of the opcode table standing next on the command channel. Log entry 4. -/
def State.withFetchWord (s : State) (nbits w : Nat) : State := deliverNext s nbits w

end Sys2Proof.Machine
end

