-- ==== Sys2Proof/Machine/HostDriver.lean ====
section
/-! DEFINITION. The host's side of the protocol: the pseudo-instructions ENCODE and DECODE (30_encoding.md R71), the
source's calls as command words (60_exceptions.md R153), the fields of a response (R63), and Encode and Decode as
functions (45_stream_driver.md R130). -/

namespace Sys2Proof.Machine

/-! ## Pseudo-instructions and source calls -/

/-- `ENCODE [m0, ..., mn-1]` expands to BEGIN and one ENCB for each byte (R71). -/
def encodeExpansion (m : List Byte) : List Instr := .begin :: m.map Instr.encb

/-- `DECODE [y0, ..., yn-1]` expands to BEGIN and one DECB for each byte (R71). -/
def decodeExpansion (ys : List Byte) : List Instr := .begin :: ys.map Instr.decb

/-- A call of the source's interface (R153). -/
inductive SourceCall where
  | init (iv key ctr : Byte)
  | encode (m : List Byte)
  | decode (ys : List Byte)
  deriving DecidableEq, Repr

/-- The commands a source call becomes (R153). -/
def SourceCall.commands : SourceCall → List Instr
  | .init iv key ctr => [.init iv key ctr]
  | .encode m => encodeExpansion m
  | .decode ys => decodeExpansion ys

/-- At least one Init comes before the first Encode or Decode (R153). -/
def startsWithInit : List SourceCall → Bool
  | .encode _ :: _ => false
  | .decode _ :: _ => false
  | _ => true

/-- The commands of a sequence of source calls (R153). -/
def sourceCommands (calls : List SourceCall) : List Instr := calls.flatMap SourceCall.commands

/-- A command sequence as it stands on the command channel. -/
def asInputs (commands : List Instr) : List Input := commands.map fun i => .command (Sys2Proof.encode i)

/-! ## The fields of a response word (R63) -/

/-- `status = response[15:8]`. -/
def statusField (r : ResponseWord) : Byte := r.extractLsb' 8 8

/-- `data = response[7:0]`. -/
def dataField (r : ResponseWord) : Byte := r.extractLsb' 0 8

/-! ## Encode and Decode as functions (R130) -/

/-- The loop of `Encode` from the counter `r` and the chain byte `ch`. -/
def encodeFrom (key : Byte) : Byte → Byte → List Byte → List Byte
  | _, _, [] => []
  | r, ch, x :: rest =>
    mixByte x r ch :: encodeFrom key (nextKeystreamCounter (increment r) key) (mixByte x r ch) rest

/-- `Encode(iv, key, ctr, m)` (R130). -/
def encodeBytes (iv key ctr : Byte) (m : List Byte) : List Byte :=
  encodeFrom key (nextKeystreamCounter ctr key) iv m

/-- The loop of `Decode` from the counter `r` and the chain byte `ch`. -/
def decodeFrom (key : Byte) : Byte → Byte → List Byte → List Byte
  | _, _, [] => []
  | r, ch, y :: rest =>
    mixByte y r ch :: decodeFrom key (nextKeystreamCounter (increment r) key) y rest

/-- `Decode(iv, key, ctr, ys)` (R130). -/
def decodeBytes (iv key ctr : Byte) (ys : List Byte) : List Byte :=
  decodeFrom key (nextKeystreamCounter ctr key) iv ys

/-- RCTR after `n` byte commands of one stream, from the counter `r` (R25, R121, R122). -/
def counterAfter (key : Byte) : Nat → Byte → Byte
  | 0, r => r
  | n + 1, r => counterAfter key n (nextKeystreamCounter (increment r) key)

end Sys2Proof.Machine
end

