-- ==== Sys2Proof/Machine/Assembler.lean ====
section
/-! DEFINITION. The assembler syntax of 30_encoding.md R70 and R71: one line of text to command words. A line is a
list of characters. What R70 leaves open is log entry 13. -/

namespace Sys2Proof.Machine

/-! ## Characters and numbers -/

/-- The white space the syntax allows between its parts. -/
def isBlank (ch : Char) : Bool := ch == ' ' || ch == '\t' || ch == '\r'

/-- The text without the white space around it. -/
def trimBlanks (cs : List Char) : List Char :=
  ((cs.dropWhile isBlank).reverse.dropWhile isBlank).reverse

/-- The value of a decimal digit. -/
def decimalDigit (ch : Char) : Option Nat :=
  if 48 ≤ ch.toNat ∧ ch.toNat ≤ 57 then some (ch.toNat - 48) else none

/-- The value of a hexadecimal digit, of either case. -/
def hexDigit (ch : Char) : Option Nat :=
  if 65 ≤ ch.toNat ∧ ch.toNat ≤ 70 then some (ch.toNat - 55)
  else if 97 ≤ ch.toNat ∧ ch.toNat ≤ 102 then some (ch.toNat - 87)
  else decimalDigit ch

/-- The number a text of digits stands for, most significant digit first. -/
def digitsValue (base : Nat) (digit : Char → Option Nat) : Nat → List Char → Option Nat
  | acc, [] => some acc
  | acc, ch :: rest =>
    match digit ch with
    | some d => digitsValue base digit (acc * base + d) rest
    | none => none

/-- A decimal number: one digit or more. -/
def decimalNumber (cs : List Char) : Option Nat :=
  if cs.isEmpty then none else digitsValue 10 decimalDigit 0 cs

/-- `0x` followed by at least `least` and at most `most` hexadecimal digits. -/
def hexNumber (least most : Nat) : List Char → Option Nat
  | '0' :: 'x' :: digits =>
    if least ≤ digits.length ∧ digits.length ≤ most then digitsValue 16 hexDigit 0 digits else none
  | _ => none

/-! ## Operands -/

/-- A byte operand: `0x` and one or two hexadecimal digits, or a decimal number from 0 to 255 (R70). -/
def byteOperand (text : List Char) : Option Byte :=
  match hexNumber 1 2 text with
  | some n => some (BitVec.ofNat 8 n)
  | none =>
    match decimalNumber text with
    | some n => if n ≤ 255 then some (BitVec.ofNat 8 n) else none
    | none => none

/-- An index operand: a decimal number from 0 to 15 (R70). -/
def indexOperand (text : List Char) : Option BitIndex :=
  match decimalNumber text with
  | some n => if n ≤ 15 then some (BitVec.ofNat 4 n) else none
  | none => none

/-- The operand of `.word`: `0xHHHHHHHH` (R70). -/
def wordOperand (text : List Char) : Option CommandWord := (hexNumber 8 8 text).map (BitVec.ofNat 32)

/-- A text cut at its commas; a text without one is one piece. -/
def cutAtCommas : List Char → List (List Char)
  | [] => [[]]
  | ch :: rest =>
    if ch == ',' then [] :: cutAtCommas rest
    else
      match cutAtCommas rest with
      | [] => [[ch]]
      | piece :: more => (ch :: piece) :: more

/-- The operands of a line: its pieces between commas, without the white space around each; none for an empty
text. -/
def operandTexts (text : List Char) : List (List Char) :=
  if (trimBlanks text).isEmpty then [] else (cutAtCommas text).map trimBlanks

/-- Every text of a list as a byte operand. -/
def byteOperands : List (List Char) → Option (List Byte)
  | [] => some []
  | text :: rest =>
    match byteOperand text, byteOperands rest with
    | some b, some bs => some (b :: bs)
    | _, _ => none

/-- The list operand of ENCODE and DECODE: byte operands between brackets (R71). -/
def listOperand (text : List Char) : Option (List Byte) :=
  match trimBlanks text with
  | '[' :: rest =>
    match rest.reverse with
    | ']' :: inner => byteOperands (operandTexts inner.reverse)
    | _ => none
  | _ => none

/-! ## Lines -/

/-- What one line of assembler text says (R70, R71). -/
inductive AsmLine where
  /-- Nothing but white space or a comment. -/
  | empty
  /-- One command. -/
  | command (i : Instr)
  /-- `.word`: a raw command word, legal or not. -/
  | word (w : CommandWord)
  /-- The pseudo-instruction ENCODE. -/
  | encode (m : List Byte)
  /-- The pseudo-instruction DECODE. -/
  | decode (ys : List Byte)
  deriving DecidableEq, Repr

/-- The command words a line stands for (R70, R71). -/
def AsmLine.words : AsmLine → List CommandWord
  | .empty => []
  | .command i => [Sys2Proof.encode i]
  | .word w => [w]
  | .encode m => (encodeExpansion m).map Sys2Proof.encode
  | .decode ys => (decodeExpansion ys).map Sys2Proof.encode

/-- One command from its mnemonic in capitals and its operands (R70). -/
def assembleCommand (mnemonic : List Char) (operands : List (List Char)) : Option Instr :=
  match operands with
  | [] =>
    if mnemonic == "BEGIN".toList then some .begin
    else if mnemonic == "RDSTAT".toList then some .rdstat
    else none
  | [x] =>
    if mnemonic == "ENCB".toList then (byteOperand x).map Instr.encb
    else if mnemonic == "DECB".toList then (byteOperand x).map Instr.decb
    else none
  | [x, y] =>
    if mnemonic == "NKC".toList then
      match byteOperand x, byteOperand y with
      | some ctr, some key => some (.nkc ctr key)
      | _, _ => none
    else
      match byteOperand x, indexOperand y with
      | some b, some i =>
        if mnemonic == "GETBIT".toList then some (.getbit b i)
        else if mnemonic == "SETBIT".toList then some (.setbit b i)
        else if mnemonic == "CLRBIT".toList then some (.clrbit b i)
        else none
      | _, _ => none
  | [x, y, z] =>
    match byteOperand x, byteOperand y, byteOperand z with
    | some a, some b, some c =>
      if mnemonic == "INIT".toList then some (.init a b c)
      else if mnemonic == "MIX".toList then some (.mix a b c)
      else none
    | _, _, _ => none
  | _ => none

/-- One line: the comment is dropped, the mnemonic stands before the first white space and is read without regard to
case, and a form the syntax does not have is an assembly error, none (R70). -/
def assembleLine (line : List Char) : Option AsmLine :=
  let text := trimBlanks (line.takeWhile fun ch => !(ch == ';'))
  let mnemonic := (text.takeWhile fun ch => !(isBlank ch)).map Char.toUpper
  let rest := text.dropWhile fun ch => !(isBlank ch)
  if text.isEmpty then some .empty
  else if mnemonic == ".WORD".toList then (wordOperand (trimBlanks rest)).map AsmLine.word
  else if mnemonic == "ENCODE".toList then (listOperand rest).map AsmLine.encode
  else if mnemonic == "DECODE".toList then (listOperand rest).map AsmLine.decode
  else (assembleCommand mnemonic (operandTexts rest)).map AsmLine.command

/-- A text, line by line; one assembly error and nothing is assembled. -/
def assemble : List (List Char) → Option (List CommandWord)
  | [] => some []
  | line :: rest =>
    match assembleLine line, assemble rest with
    | some l, some ws => some (l.words ++ ws)
    | _, _ => none

end Sys2Proof.Machine
end

