-- ==== Sys2Proof/Safety.lean ====
section
/-! DEFINITION. The terms claims use: the gating of the registers, what a run shows, a faulted run. -/

namespace Sys2Proof.Machine

/-- The gating of 10_state.md R35: KEYED = 1 implies that IV, KEY and CTR hold values, and OPEN = 1 that KEYED is 1
and RCTR and CHAIN hold values. -/
abbrev Gated (s : State) : Prop :=
  (s.status.keyed = true → s.iv.written = true ∧ s.key.written = true ∧ s.ctr.written = true) ∧
  (s.status.opened = true → s.status.keyed = true ∧ s.rctr.written = true ∧ s.chain.written = true)

/-- What a run shows: the response words, the final values of the six registers, the fault record (R180). -/
structure Observation where
  responses : List ResponseWord
  iv : Option Byte
  key : Option Byte
  ctr : Option Byte
  rctr : Option Byte
  chain : Option Byte
  status : Byte
  faults : List FaultEntry
  deriving DecidableEq, Repr

/-- The observation of a state (R180). -/
def State.observe (s : State) : Observation where
  responses := s.responses
  iv := s.iv.value
  key := s.key.value
  ctr := s.ctr.value
  rctr := s.rctr.value
  chain := s.chain.value
  status := s.status.byte
  faults := s.faults

/-- A run whose fault record is not empty is a faulted run (R158, R180). -/
def State.faulted (s : State) : Bool := !s.faults.isEmpty

/-- The state of an outcome that is a next state. -/
def next? : Result → Option State
  | .next s => some s
  | .fault _ => none
  | .refused _ => none

/-- The closed form of counter evolution (R91): `ctr ^ (key & M)` with `M` 0x55 for an even counter and 0xAA for an
odd one. -/
def closedCounter (ctr key : Byte) : Byte := ctr ^^^ (key &&& if ctr.toNat % 2 = 0 then 0x55 else 0xAA)

/-- The closed form of the mixer (R101): `x ^ KS` with `KS = (chain & ctr) | (rev8(chain) & ~ctr)`. -/
def closedMix (x ctr chain : Byte) : Byte := x ^^^ ((chain &&& ctr) ||| (chain.reverse &&& ~~~ctr))

/-- `n` steps, stopping at the first that is no next state (R180). -/
def runSteps : Nat → State → Result
  | 0, s => .next s
  | n + 1, s =>
    match step s with
    | .next t => runSteps n t
    | .fault r => .fault r
    | .refused r => .refused r

/-- `n` steps from `s` all answer a next state, the last one `t`. -/
abbrev Runs (n : Nat) (s t : State) : Prop := runSteps n s = .next t

/-- The word `w` stands next on the command channel of the one host, and `rest` after it. -/
abbrev CommandNext (s : State) (w : CommandWord) (rest : List Input) : Prop :=
  s.hosts ≤ 1 ∧ s.inbox = .command w :: rest

end Sys2Proof.Machine
end

