-- ==== Sys2Proof/WellFormed.lean ====
section
/-! DEFINITION. When a 32-bit word is a well-formed command word, written from the FIELD rules of 30_encoding.md
(R61, R65 to R67) and not from the match and mask columns the decoder uses: the two are held against each other by a
statement. A command of type `Instr` has no check: its operand types are the field widths. -/

namespace Sys2Proof

/-- Which fields an opcode uses; every other field must be zero (R65, R66). -/
structure FieldUse where
  idx : Bool
  a : Bool
  b : Bool
  c : Bool
  deriving DecidableEq, Repr

/-- The operand columns of the opcode map; none for the reserved opcodes 0x0 and 0xB to 0xF (R65, R67). -/
def fieldUse (op : BitVec 4) : Option FieldUse :=
  match op.toNat with
  | 0x1 => some ⟨false, true, true, true⟩
  | 0x2 => some ⟨false, false, false, false⟩
  | 0x3 => some ⟨false, false, false, true⟩
  | 0x4 => some ⟨false, false, false, true⟩
  | 0x5 => some ⟨false, true, true, false⟩
  | 0x6 => some ⟨false, true, true, true⟩
  | 0x7 => some ⟨true, false, false, true⟩
  | 0x8 => some ⟨true, false, false, true⟩
  | 0x9 => some ⟨true, false, false, true⟩
  | 0xA => some ⟨false, false, false, false⟩
  | _ => none

/-- The word has a valid opcode and every field the opcode does not use is zero (R66, R67). -/
def wellFormedWord (w : CommandWord) : Bool :=
  match fieldUse (opField w) with
  | none => false
  | some u => (u.idx || idxField w == 0) && (u.a || aField w == 0)
      && (u.b || bField w == 0) && (u.c || cField w == 0)

end Sys2Proof
end

