-- ==== Sys2Proof/Certificates/Slice0/Obligations.lean ====
section
/-! DEFINITION. The statements for the provers, in the order of OBLIGATIONS.json. Each docstring names the rule of
spec/ it rests on. A clause that rests on a choice of the model names the log entry. -/

open Sys2Proof Sys2Proof.Machine

/-! ## Encoding (30_encoding.md) -/

/-- R61, R65, R68: decoding the word of a command gives the command, with every operand at every value. -/
def Obligations.DecodeInvertsEncode : Prop := ∀ i : Instr, decode (encode i) = .legal i

/-- R65, R68: a word that decodes to a command is the word of that command, so no bit of it is ignored. -/
def Obligations.EncodeInvertsDecode : Prop := ∀ (w : CommandWord) (i : Instr), decode w = .legal i → encode i = w

/-- R66, R67: the words that decode to a command are exactly those with a valid opcode and every should-be-zero
field zero. -/
def Obligations.LegalWordsAreTheWellFormedOnes : Prop :=
  ∀ w : CommandWord, (∃ i, decode w = .legal i) ↔ wellFormedWord w = true

/-- R65: at most one row of the opcode map selects a word. -/
def Obligations.AtMostOneRowSelectsAWord : Prop :=
  ∀ w : CommandWord, ∀ r₁ ∈ opcodeRows, ∀ r₂ ∈ opcodeRows,
    r₁.selects w = true → r₂.selects w = true → r₁.mnemonic = r₂.mnemonic

/-- R68: the number of legal words. -/
def Obligations.LegalWordCount : Prop :=
  Nat.card { w : CommandWord // ∃ i, decode w = .legal i } = 33632770

/-- R65: words written out from the pattern strings decode to the commands they stand for. -/
def Obligations.DecoderReadsPatternWords : Prop :=
  decode 0b00010000101100011100101100110101 = .legal (.init 0xB1 0xCB 0x35) ∧
  decode 0b00100000000000000000000000000000 = .legal .begin ∧
  decode 0b00110000000000000000000001001000 = .legal (.encb 0x48) ∧
  decode 0b01000000000000000000000011111001 = .legal (.decb 0xF9) ∧
  decode 0b01010000001101011100101100000000 = .legal (.nkc 0x35 0xCB) ∧
  decode 0b01100000010010001011111110110001 = .legal (.mix 0x48 0xBF 0xB1) ∧
  decode 0b01110110000000000000000001001000 = .legal (.getbit 0x48 6) ∧
  decode 0b10000111000000000000000000000000 = .legal (.setbit 0x00 7) ∧
  decode 0b10010000000000000000000011111111 = .legal (.clrbit 0xFF 0) ∧
  decode 0b10100000000000000000000000000000 = .legal .rdstat

/-! ## Component functions (42, 43, 44, 00_scope.md R8) -/

/-- R91: which bits counter evolution changes, and its closed form. -/
def Obligations.CounterEvolutionBits : Prop :=
  ∀ ctr key : Byte,
    (∀ i, i < 8 → (nextKeystreamCounter ctr key).getLsbD i =
      if i % 2 = ctr.toNat % 2 then (ctr.getLsbD i ^^ key.getLsbD i) else ctr.getLsbD i) ∧
    nextKeystreamCounter ctr key = ctr ^^^ (key &&& if ctr.toNat % 2 = 0 then 0x55 else 0xAA)

/-- R93: the corner cases of counter evolution. -/
def Obligations.CounterEvolutionCornerCases : Prop :=
  (∀ ctr, nextKeystreamCounter ctr 0x00 = ctr) ∧
  (∀ ctr key, ctr.getLsbD 0 = true → (nextKeystreamCounter ctr key).getLsbD 0 = true) ∧
  (∀ ctr key, ctr.getLsbD 0 = false → (nextKeystreamCounter ctr key).getLsbD 0 = key.getLsbD 0) ∧
  nextKeystreamCounter 0x00 0x01 = 0x01 ∧ nextKeystreamCounter 0x01 0x01 = 0x01 ∧
  (∀ key, Function.Injective (fun ctr => nextKeystreamCounter ctr key) ↔ key.getLsbD 0 = false) ∧
  (Finset.univ.image fun ctr : Byte => nextKeystreamCounter ctr 0xCB).card = 128 ∧
  (∀ ctr key, key.getLsbD 0 = false → nextKeystreamCounter (nextKeystreamCounter ctr key) key = ctr) ∧
  nextKeystreamCounter 0xFF 0xFF = 0x55 ∧ nextKeystreamCounter 0x00 0xFF = 0x55 ∧
  nextKeystreamCounter 0x01 0xFF = 0xAB ∧ nextKeystreamCounter 0xFE 0xFF = 0xAB

/-- R101: which bits the mixer combines, and its closed form. -/
def Obligations.MixerBits : Prop :=
  ∀ x ctr chain : Byte,
    (∀ i, i < 8 → (mixByte x ctr chain).getLsbD i =
      (x.getLsbD i ^^ if ctr.getLsbD i then chain.getLsbD i else chain.getLsbD (7 - i))) ∧
    mixByte x ctr chain = x ^^^ ((chain &&& ctr) ||| (rev8 chain &&& ~~~ctr)) ∧
    rev8 chain = chain.reverse

/-- R103: the mixer is its own inverse. -/
def Obligations.MixerIsSelfInverse : Prop :=
  ∀ x ctr chain : Byte, mixByte (mixByte x ctr chain) ctr chain = x

/-- R104: the corner cases of the mixer. -/
def Obligations.MixerCornerCases : Prop :=
  (∀ x chain, mixByte x 0xFF chain = x ^^^ chain) ∧
  (∀ x chain, mixByte x 0x00 chain = x ^^^ rev8 chain) ∧ mixByte 0x00 0x00 0x01 = 0x80 ∧
  (∀ x ctr, mixByte x ctr 0x00 = x) ∧
  (∀ x ctr chain, rev8 chain = chain → mixByte x ctr chain = x ^^^ chain) ∧
  (rev8 0xA5 = 0xA5 ∧ rev8 0x81 = 0x81 ∧ rev8 0x3C = 0x3C ∧ rev8 0xFF = 0xFF) ∧
  mixByte 0x00 0xF0 0x01 = 0x00 ∧
  (∀ x x' ctr ctr' chain chain' : Byte, ∀ i, i < 8 → x.getLsbD i = x'.getLsbD i →
    ctr.getLsbD i = ctr'.getLsbD i → chain.getLsbD i = chain'.getLsbD i →
    chain.getLsbD (7 - i) = chain'.getLsbD (7 - i) →
    (mixByte x ctr chain).getLsbD i = (mixByte x' ctr' chain').getLsbD i) ∧
  (∀ x ctr chain, mixByte (rev8 x) (rev8 ctr) (rev8 chain) = rev8 (mixByte x ctr chain))

/-- R113: the laws of the bit primitives. -/
def Obligations.BitPrimitiveLaws : Prop :=
  ∀ b : Byte,
    (∀ i, i ≤ 7 → getBit (setBit b i) i = true ∧ getBit (clearBit b i) i = false) ∧
    (∀ i, 8 ≤ i → i ≤ 15 → setBit b i = b ∧ clearBit b i = b) ∧
    (∀ i j, i ≤ 7 → j ≤ 7 → j ≠ i →
      getBit (setBit b i) j = getBit b j ∧ getBit (clearBit b i) j = getBit b j)

/-! ## STATUS and reset (10_state.md) -/

/-- R30, R33: the bits of STATUS as a byte. -/
def Obligations.StatusByteLayout : Prop :=
  ∀ st : Status,
    st.byte.getLsbD 0 = st.keyed ∧ st.byte.getLsbD 1 = st.opened ∧ st.byte.getLsbD 2 = st.perr ∧
    st.byte.getLsbD 3 = st.ill ∧ ∀ i, 4 ≤ i → i ≤ 7 → st.byte.getLsbD i = false

/-- R34: STATUS is 0x00 after reset and the other five registers hold no value. -/
def Obligations.ResetRegisters : Prop :=
  State.reset.status.byte = 0x00 ∧ State.reset.iv.value = none ∧ State.reset.key.value = none ∧
  State.reset.ctr.value = none ∧ State.reset.rctr.value = none ∧ State.reset.chain.value = none

/-- R35: the state after reset meets the gating of the registers. -/
def Obligations.ResetIsGated : Prop := Gated State.reset

/-- R35: every step keeps the gating, whatever the outside delivers. -/
def Obligations.StepKeepsGating : Prop := ∀ s t : State, Gated s → step s = .next t → Gated t

/-- R35: no step of a gated state reads a register that holds no value. -/
def Obligations.NoStepReadsUnwrittenRegister : Prop :=
  ∀ s : State, Gated s → ∀ r : RegName, step s ≠ .fault (.unwrittenRead r)

/-- R35: with KEYED = 1 a BEGIN is the fault UnwrittenRead exactly where a register it reads holds no value, and with
OPEN = 1 a byte command is; the fault names a register that holds none. (Which one where several hold none is the
order of the pseudocode, log entry 2: nothing here says which.) -/
def Obligations.UnwrittenReadFaults : Prop :=
  (∀ s : State, s.status.keyed = true →
    ((∃ r, exec .begin s = .fault (.unwrittenRead r)) ↔
      s.iv.value = none ∨ s.key.value = none ∨ s.ctr.value = none)) ∧
  (∀ (s : State) (b : Byte), s.status.opened = true →
    ((∃ r, exec (.encb b) s = .fault (.unwrittenRead r)) ↔
      s.rctr.value = none ∨ s.chain.value = none ∨ s.key.value = none) ∧
    ((∃ r, exec (.decb b) s = .fault (.unwrittenRead r)) ↔
      s.rctr.value = none ∨ s.chain.value = none ∨ s.key.value = none)) ∧
  (∀ (s : State) (i : Instr) (r : RegName), exec i s = .fault (.unwrittenRead r) → (s.reg r).value = none)

/-! ## Each command: where it completes, its result and its frame, as the whole next state -/

/-- R80: INIT in any state. -/
def Obligations.InitLoadsCipherState : Prop :=
  ∀ (s : State) (iv key ctr : Byte),
    exec (.init iv key ctr) s = .next
      { s with
        iv := ⟨iv, true⟩, key := ⟨key, true⟩, ctr := ⟨ctr, true⟩
        status := { s.status with keyed := true, opened := false }
        responses := s.responses ++ [Status.byte { s.status with keyed := true, opened := false } ++ 0x00#8]
        index := s.index + 1 }

/-- R120: BEGIN with KEYED = 1 and values in IV, KEY and CTR. -/
def Obligations.BeginOpensStream : Prop :=
  ∀ (s : State) (iv key ctr : Byte), s.status.keyed = true → s.iv.value = some iv → s.key.value = some key →
    s.ctr.value = some ctr →
    exec .begin s = .next
      { s with
        rctr := ⟨closedCounter ctr key, true⟩, chain := ⟨iv, true⟩
        status := { s.status with opened := true }
        responses := s.responses ++ [Status.byte { s.status with opened := true } ++ 0x00#8]
        index := s.index + 1 }

/-- R121: ENCB in an open stream with values in RCTR, CHAIN and KEY. The new CHAIN is the output byte. -/
def Obligations.EncbEncryptsOneByte : Prop :=
  ∀ (s : State) (x r ch key : Byte), s.status.opened = true → s.rctr.value = some r →
    s.chain.value = some ch → s.key.value = some key →
    exec (.encb x) s = .next
      { s with
        chain := ⟨closedMix x r ch, true⟩, rctr := ⟨closedCounter (r + 1) key, true⟩
        responses := s.responses ++ [s.status.byte ++ closedMix x r ch]
        index := s.index + 1 }

/-- R122: DECB in an open stream with values in RCTR, CHAIN and KEY. The new CHAIN is the input byte. -/
def Obligations.DecbDecryptsOneByte : Prop :=
  ∀ (s : State) (y r ch key : Byte), s.status.opened = true → s.rctr.value = some r →
    s.chain.value = some ch → s.key.value = some key →
    exec (.decb y) s = .next
      { s with
        chain := ⟨y, true⟩, rctr := ⟨closedCounter (r + 1) key, true⟩
        responses := s.responses ++ [s.status.byte ++ closedMix y r ch]
        index := s.index + 1 }

/-- R92: NKC in any state answers the closed form of counter evolution and changes no register. -/
def Obligations.NkcAnswersCounterEvolution : Prop :=
  ∀ (s : State) (ctr key : Byte),
    exec (.nkc ctr key) s = .next
      { s with responses := s.responses ++ [s.status.byte ++ closedCounter ctr key], index := s.index + 1 }

/-- R102: MIX in any state answers the closed form of the mixer and changes no register. -/
def Obligations.MixAnswersMixedByte : Prop :=
  ∀ (s : State) (x ctr chain : Byte),
    exec (.mix x ctr chain) s = .next
      { s with responses := s.responses ++ [s.status.byte ++ closedMix x ctr chain], index := s.index + 1 }

/-- R110: GETBIT in any state answers the bit, zero extended, for an index from 0 to 7, and the open parameter
`getbit_oob` for one from 8 to 15 (log entry 3); it changes no register. -/
def Obligations.GetbitAnswersOneBit : Prop :=
  ∀ (s : State) (b : Byte) (i : BitIndex),
    exec (.getbit b i) s = .next
      { s with
        responses := s.responses ++ [s.status.byte ++
          (if i.toNat ≤ 7 then (if b.getLsbD i.toNat then 0x01#8 else 0x00#8) else Config.getbitOob b i)]
        index := s.index + 1 }

/-- R111: SETBIT in any state answers a byte with bit `i` set and every other bit of the operand, which for an index
from 8 to 15 is the operand; it changes no register. -/
def Obligations.SetbitForcesBitToOne : Prop :=
  ∀ (s : State) (b : Byte) (i : BitIndex), ∃ d : Byte,
    (∀ j, j < 8 → d.getLsbD j = if j = i.toNat then true else b.getLsbD j) ∧
    exec (.setbit b i) s = .next
      { s with responses := s.responses ++ [s.status.byte ++ d], index := s.index + 1 }

/-- R112: CLRBIT in any state answers a byte with bit `i` clear and every other bit of the operand, which for an index
from 8 to 15 is the operand; it changes no register. -/
def Obligations.ClrbitForcesBitToZero : Prop :=
  ∀ (s : State) (b : Byte) (i : BitIndex), ∃ d : Byte,
    (∀ j, j < 8 → d.getLsbD j = if j = i.toNat then false else b.getLsbD j) ∧
    exec (.clrbit b i) s = .next
      { s with responses := s.responses ++ [s.status.byte ++ d], index := s.index + 1 }

/-- R140: RDSTAT in any state answers STATUS in both bytes and changes no register. -/
def Obligations.RdstatAnswersStatus : Prop :=
  ∀ s : State,
    exec .rdstat s = .next
      { s with responses := s.responses ++ [s.status.byte ++ s.status.byte], index := s.index + 1 }

/-! ## Errors (60_exceptions.md) -/

/-- R151: the causes of ProtocolError and its whole effect. The words are those of the commands (R65). -/
def Obligations.ProtocolErrorEffect : Prop :=
  (∀ s : State, s.status.keyed = false →
    exec .begin s = .next
      { s with
        status := { s.status with perr := true }
        responses := s.responses ++ [Status.byte { s.status with perr := true } ++ 0x00#8]
        faults := s.faults ++ [⟨.noKey, 0x20000000, s.index⟩]
        index := s.index + 1 }) ∧
  (∀ (s : State) (b : Byte), s.status.opened = false →
    exec (.encb b) s = .next
      { s with
        status := { s.status with perr := true }
        responses := s.responses ++ [Status.byte { s.status with perr := true } ++ 0x00#8]
        faults := s.faults ++ [⟨.noStream, 0x300000#24 ++ b, s.index⟩]
        index := s.index + 1 } ∧
    exec (.decb b) s = .next
      { s with
        status := { s.status with perr := true }
        responses := s.responses ++ [Status.byte { s.status with perr := true } ++ 0x00#8]
        faults := s.faults ++ [⟨.noStream, 0x400000#24 ++ b, s.index⟩]
        index := s.index + 1 })

/-- R150: a word with a reserved opcode or a nonzero should-be-zero field sets ILL, answers 0x00 and changes nothing
else. -/
def Obligations.IllegalWordEffect : Prop :=
  ∀ (s : State) (w : CommandWord) (rest : List Input), CommandNext s w rest → wellFormedWord w = false →
    step s = .next
      { s with
        inbox := rest
        status := { s.status with ill := true }
        responses := s.responses ++ [Status.byte { s.status with ill := true } ++ 0x00#8]
        faults := s.faults ++ [⟨.illegalCommand, w, s.index⟩]
        index := s.index + 1 }

/-- R152, R155: the entry each command adds to the fault record, at most one, decoding first; the codes. -/
def Obligations.FaultEntryOfEachCommand : Prop :=
  (∀ (s t : State) (w : CommandWord) (rest : List Input), CommandNext s w rest → step s = .next t →
    t.faults = s.faults ++
      (match decode w with
        | .illegal _ => [⟨.illegalCommand, w, s.index⟩]
        | .legal .begin => if s.status.keyed then [] else [⟨.noKey, w, s.index⟩]
        | .legal (.encb _) => if s.status.opened then [] else [⟨.noStream, w, s.index⟩]
        | .legal (.decb _) => if s.status.opened then [] else [⟨.noStream, w, s.index⟩]
        | .legal _ => []) ∧
    (t.faults = s.faults ++ [⟨.illegalCommand, w, s.index⟩] → t.status.ill = true) ∧
    (t.faults = s.faults ++ [⟨.noKey, w, s.index⟩] → t.status.perr = true) ∧
    (t.faults = s.faults ++ [⟨.noStream, w, s.index⟩] → t.status.perr = true)) ∧
  ErrorCode.illegalCommand.number = 1 ∧ ErrorCode.noKey.number = 2 ∧ ErrorCode.noStream.number = 3

/-- R32: PERR is set by a ProtocolError, ILL by an IllegalCommand; no command clears either, and reset clears both. -/
def Obligations.StickyErrorBits : Prop :=
  (∀ (s t : State) (w : CommandWord) (rest : List Input), CommandNext s w rest → step s = .next t →
    t.status.perr = (s.status.perr ||
      (match decode w with
        | .legal .begin => !s.status.keyed
        | .legal (.encb _) => !s.status.opened
        | .legal (.decb _) => !s.status.opened
        | _ => false)) ∧
    t.status.ill = (s.status.ill || !wellFormedWord w)) ∧
  (∀ (s t : State) (p : Option CommandWord) (rest : List Input), s.inbox = .reset p :: rest →
    step s = .next t → t.status.perr = false ∧ t.status.ill = false)

/-- R31: KEYED is set by INIT, OPEN by a BEGIN that raises no error and cleared by INIT; no other command changes
them; reset clears both. -/
def Obligations.KeyedAndOpenLifetime : Prop :=
  (∀ (s t : State) (w : CommandWord) (rest : List Input), CommandNext s w rest → step s = .next t →
    t.status.keyed = (match decode w with
      | .legal (.init _ _ _) => true
      | _ => s.status.keyed) ∧
    t.status.opened = (match decode w with
      | .legal (.init _ _ _) => false
      | .legal .begin => s.status.keyed || s.status.opened
      | _ => s.status.opened)) ∧
  (∀ (s t : State) (p : Option CommandWord) (rest : List Input), s.inbox = .reset p :: rest →
    step s = .next t → t.status.keyed = false ∧ t.status.opened = false)

/-- R171: after reset INIT and the stateless commands execute without error; BEGIN raises NoKey, ENCB and DECB raise
NoStream. -/
def Obligations.FirstCommandAfterReset : Prop :=
  ∀ i : Instr, ∃ t, exec i State.reset = .next t ∧
    t.faults = (match i with
      | .begin => [⟨.noKey, encode i, 0⟩]
      | .encb _ => [⟨.noStream, encode i, 0⟩]
      | .decb _ => [⟨.noStream, encode i, 0⟩]
      | _ => []) ∧
    (t.status.perr = true ↔ t.faults ≠ []) ∧ t.status.ill = false

/-! ## The sequencer (20_memory.md) -/

/-- R45, R68: when the next word decodes to a command, the step is that command's execution in the state in which the
word has left the channel. -/
def Obligations.StepRunsDecodedCommand : Prop :=
  ∀ (s : State) (w : CommandWord) (rest : List Input) (i : Instr), CommandNext s w rest → decode w = .legal i →
    step s = exec i { s with inbox := rest }

/-- R63, R45: in a gated state every command word is answered by exactly one response, which carries STATUS as it
stands after the command in its high byte; the word leaves the channel and the command is counted. -/
def Obligations.EveryCommandIsAnsweredOnce : Prop :=
  ∀ (s : State) (w : CommandWord) (rest : List Input), Gated s → CommandNext s w rest →
    ∃ (t : State) (d : Byte), step s = .next t ∧ t.responses = s.responses ++ [t.status.byte ++ d] ∧
      t.inbox = rest ∧ t.index = s.index + 1

/-- R64: the data byte of INIT, BEGIN and any command that raises an error is 0x00. -/
def Obligations.CommandsWithoutResultAnswerZero : Prop :=
  ∀ (s t : State) (w : CommandWord) (rest : List Input), CommandNext s w rest → step s = .next t →
    (t.faults ≠ s.faults ∨ decode w = .legal .begin ∨ ∃ iv key ctr, decode w = .legal (.init iv key ctr)) →
    t.responses = s.responses ++ [t.status.byte ++ 0x00#8]

/-- R170, R46: reset puts every register into its reset state and discards a command in progress without a response.
That the inputs still to come, the responses delivered and the fault record stay is the model's choice (log
entry 5), and so is the field `hosts`, which stays as well (log entry 7). -/
def Obligations.ResetDiscardsEverything : Prop :=
  ∀ (s : State) (p : Option CommandWord) (rest : List Input), s.hosts ≤ 1 → s.inbox = .reset p :: rest →
    step s = .next
      { iv := State.reset.iv, key := State.reset.key, ctr := State.reset.ctr, rctr := State.reset.rctr
        chain := State.reset.chain, status := State.reset.status, index := 0
        inbox := rest, responses := s.responses, faults := s.faults, hosts := s.hosts }

/-- With nothing delivered the engine waits: the model's choice (log entry 4). -/
def Obligations.IdleEngineWaits : Prop :=
  ∀ s : State, s.hosts ≤ 1 → s.inbox = [] → step s = .next s

/-- R52 and U6: more than one host, and a command that arrives during reset, are refused. The field `hosts`, in which
the first is written down, is the model's own (log entry 7). -/
def Obligations.RefusedConfigurations : Prop :=
  (∀ s : State, 1 < s.hosts → step s = .refused .severalHosts) ∧
  (∀ (s : State) (w : CommandWord) (rest : List Input), s.hosts ≤ 1 →
    s.inbox = .commandDuringReset w :: rest → step s = .refused .commandDuringReset)

/-- R152, R63, D16: no step takes back a response or a fault entry. That reset keeps both lists is the model's choice
(log entry 5). The last conjunct, that no step changes the number of hosts, is no rule of the spec: `hosts` is the
model's own field (log entry 7, DESIGN CHOICE). -/
def Obligations.RecordsOnlyGrow : Prop :=
  ∀ s t : State, step s = .next t → s.responses <+: t.responses ∧ s.faults <+: t.faults ∧ t.hosts = s.hosts

/-! ## Who writes which register -/

/-- R22, R81: only INIT writes IV, KEY and CTR. -/
def Obligations.OnlyInitWritesCipherState : Prop :=
  ∀ (s t : State) (w : CommandWord) (rest : List Input), CommandNext s w rest → step s = .next t →
    (∀ iv key ctr, decode w ≠ .legal (.init iv key ctr)) →
    t.iv = s.iv ∧ t.key = s.key ∧ t.ctr = s.ctr

/-- R23: while a stream is open IV, KEY and CTR do not change, whatever the outside delivers. -/
def Obligations.CipherStateIsFixedWhileStreamIsOpen : Prop :=
  ∀ s t : State, step s = .next t → s.status.opened = true → t.status.opened = true →
    t.iv = s.iv ∧ t.key = s.key ∧ t.ctr = s.ctr

/-- R20, R25, R26: only BEGIN, ENCB and DECB write RCTR and CHAIN. -/
def Obligations.OnlyStreamCommandsWriteWorkingState : Prop :=
  ∀ (s t : State) (w : CommandWord) (rest : List Input), CommandNext s w rest → step s = .next t →
    decode w ≠ .legal .begin → (∀ b, decode w ≠ .legal (.encb b) ∧ decode w ≠ .legal (.decb b)) →
    t.rctr = s.rctr ∧ t.chain = s.chain

/-- R28: while no stream is open the values of RCTR and CHAIN decide nothing: two states that differ only there step
to states that differ at most there, and to the same state where the step opens a stream. -/
def Obligations.WorkingStateIsUnreadWhileClosed : Prop :=
  ∀ (s t : State) (r c : Reg), s.status.opened = false → step s = .next t →
    ∃ r' c' : Reg, step { s with rctr := r, chain := c } = .next { t with rctr := r', chain := c' } ∧
      (t.status.opened = true → r' = t.rctr ∧ c' = t.chain)

/-- R47: the stateless commands change no register, no STATUS bit and no fault entry; a repeated INIT and a repeated
BEGIN leave every register and STATUS bit as one leaves them; ENCB and DECB advance RCTR and replace CHAIN. -/
def Obligations.SideEffectsAndIdempotency : Prop :=
  (∀ (s t : State) (i : Instr),
    (match i with
      | .init _ _ _ => False
      | .begin => False
      | .encb _ => False
      | .decb _ => False
      | _ => True) → exec i s = .next t →
    t = { s with responses := t.responses, index := t.index }) ∧
  (∀ (s t t' : State) (iv key ctr : Byte), exec (.init iv key ctr) s = .next t →
    exec (.init iv key ctr) t = .next t' → t' = { t with responses := t'.responses, index := t'.index }) ∧
  (∀ s t t' : State, exec .begin s = .next t → exec .begin t = .next t' →
    t' = { t with responses := t'.responses, faults := t'.faults, index := t'.index } ∧
    (s.status.keyed = true → t'.faults = t.faults)) ∧
  (∀ (s t : State) (b r ch key : Byte), s.status.opened = true → s.rctr.value = some r →
    s.chain.value = some ch → s.key.value = some key →
    (exec (.encb b) s = .next t → t.rctr.value = some (closedCounter (r + 1) key) ∧
      t.chain.value = some (closedMix b r ch)) ∧
    (exec (.decb b) s = .next t → t.rctr.value = some (closedCounter (r + 1) key) ∧ t.chain.value = some b))

/-! ## Streams (45_stream_driver.md) -/

/-- R27: after a byte command CHAIN holds the ciphertext byte: the answered byte for ENCB, the operand for DECB. -/
def Obligations.ChainHoldsCiphertextByte : Prop :=
  ∀ (s : State) (b : Byte), Gated s → s.status.opened = true →
    (∃ (t : State) (y : Byte), exec (.encb b) s = .next t ∧ t.responses = s.responses ++ [t.status.byte ++ y] ∧
      t.chain.value = some y) ∧
    (∃ t : State, exec (.decb b) s = .next t ∧ t.chain.value = some b)

/-- R123: in an open stream ENCB and DECB of the same byte differ only in CHAIN. -/
def Obligations.DirectionOnlyDecidesChain : Prop :=
  ∀ (s : State) (b : Byte), Gated s → s.status.opened = true →
    ∃ t : State, exec (.encb b) s = .next t ∧ exec (.decb b) s = .next { t with chain := ⟨b, true⟩ }

/-- R130: the commands of `ENCODE m` answer `Encode(m)`, from any state with a key, and leave the whole state they
should: CHAIN the last ciphertext byte (R27), RCTR advanced once a byte (R25). -/
def Obligations.EncodeCommandsComputeEncode : Prop :=
  ∀ (s : State) (iv key ctr : Byte) (m : List Byte) (rest : List Input), s.hosts ≤ 1 →
    s.status.keyed = true → s.iv.value = some iv → s.key.value = some key → s.ctr.value = some ctr →
    s.inbox = asInputs (encodeExpansion m) ++ rest →
    Runs (m.length + 1) s
      { s with
        inbox := rest
        status := { s.status with opened := true }
        rctr := ⟨counterAfter key m.length (nextKeystreamCounter ctr key), true⟩
        chain := ⟨(iv :: encodeBytes iv key ctr m).getLast (List.cons_ne_nil _ _), true⟩
        responses := s.responses ++ (0x00#8 :: encodeBytes iv key ctr m).map fun d =>
          Status.byte { s.status with opened := true } ++ d
        index := s.index + (m.length + 1) }

/-- R130: the commands of `DECODE ys` answer `Decode(ys)`, from any state with a key, and leave the whole state they
should: CHAIN the last ciphertext byte (R27), RCTR advanced once a byte (R25). -/
def Obligations.DecodeCommandsComputeDecode : Prop :=
  ∀ (s : State) (iv key ctr : Byte) (ys : List Byte) (rest : List Input), s.hosts ≤ 1 →
    s.status.keyed = true → s.iv.value = some iv → s.key.value = some key → s.ctr.value = some ctr →
    s.inbox = asInputs (decodeExpansion ys) ++ rest →
    Runs (ys.length + 1) s
      { s with
        inbox := rest
        status := { s.status with opened := true }
        rctr := ⟨counterAfter key ys.length (nextKeystreamCounter ctr key), true⟩
        chain := ⟨(iv :: ys).getLast (List.cons_ne_nil _ _), true⟩
        responses := s.responses ++ (0x00#8 :: decodeBytes iv key ctr ys).map fun d =>
          Status.byte { s.status with opened := true } ++ d
        index := s.index + (ys.length + 1) }

/-- R131: round trip in both orders, length preservation, and the prefix property. -/
def Obligations.StreamFunctionLaws : Prop :=
  ∀ (iv key ctr : Byte) (m : List Byte),
    decodeBytes iv key ctr (encodeBytes iv key ctr m) = m ∧
    encodeBytes iv key ctr (decodeBytes iv key ctr m) = m ∧
    (encodeBytes iv key ctr m).length = m.length ∧ (decodeBytes iv key ctr m).length = m.length ∧
    ∀ m' : List Byte, encodeBytes iv key ctr m <+: encodeBytes iv key ctr (m ++ m')

/-- R131, item 1, on the engine: ENCODE m and then DECODE of its output answer m, from any state with a key. -/
def Obligations.EngineRoundTrip : Prop :=
  ∀ (s : State) (iv key ctr : Byte) (m : List Byte) (rest : List Input), s.hosts ≤ 1 →
    s.status.keyed = true → s.iv.value = some iv → s.key.value = some key → s.ctr.value = some ctr →
    s.inbox = asInputs (encodeExpansion m ++ decodeExpansion (encodeBytes iv key ctr m)) ++ rest →
    ∃ t : State, Runs (2 * (m.length + 1)) s t ∧ t.inbox = rest ∧ t.faults = s.faults ∧
      (t.responses.drop s.responses.length).map dataField =
        0x00#8 :: encodeBytes iv key ctr m ++ 0x00#8 :: m

/-- R131, item 3, on the engine: two encode streams under the same IV, KEY and CTR answer the same data bytes,
whatever else the two states hold. -/
def Obligations.EncodeStreamsAreDeterministic : Prop :=
  ∀ (s s' : State) (m : List Byte) (rest rest' : List Input), s.hosts ≤ 1 → s'.hosts ≤ 1 → Gated s → Gated s' →
    s.status.keyed = true → s'.status.keyed = true → s'.iv = s.iv → s'.key = s.key → s'.ctr = s.ctr →
    s.inbox = asInputs (encodeExpansion m) ++ rest → s'.inbox = asInputs (encodeExpansion m) ++ rest' →
    ∃ t t' : State, Runs (m.length + 1) s t ∧ Runs (m.length + 1) s' t' ∧
      (t'.responses.drop s'.responses.length).map dataField =
        (t.responses.drop s.responses.length).map dataField

/-- R153: a sequence of source calls that starts with Init raises no error, from any state. -/
def Obligations.SourceCallsRaiseNoError : Prop :=
  ∀ (s : State) (calls : List SourceCall) (rest : List Input), s.hosts ≤ 1 → startsWithInit calls = true →
    s.inbox = asInputs (sourceCommands calls) ++ rest →
    ∃ t : State, Runs (sourceCommands calls).length s t ∧ t.inbox = rest ∧ t.faults = s.faults ∧
      t.status.perr = s.status.perr ∧ t.status.ill = s.status.ill

/-! ## Assembler (30_encoding.md R70, R71) -/

/-- R70: a decimal number from 0 to 255 is a byte operand and one from 0 to 15 an index operand; a number out of range
is an assembly error. -/
def Obligations.DecimalOperandRanges : Prop :=
  ∀ n, n < 1000 →
    byteOperand (Nat.toDigits 10 n) = (if n ≤ 255 then some (BitVec.ofNat 8 n) else none) ∧
    indexOperand (Nat.toDigits 10 n) = (if n ≤ 15 then some (BitVec.ofNat 4 n) else none)

/-- R71: the pseudo-instructions expand to BEGIN and one byte command for each byte, in order. -/
def Obligations.PseudoInstructionExpansion : Prop :=
  (∀ m : List Byte, (AsmLine.encode m).words = 0x20000000#32 :: m.map fun b => 0x300000#24 ++ b) ∧
  (∀ ys : List Byte, (AsmLine.decode ys).words = 0x20000000#32 :: ys.map fun b => 0x400000#24 ++ b)
end

