-- ==== Sys2Proof/Laws/Bits.lean ====
section
/-! SUPPORT. The bits of a byte after an assignment to one of them, and of a loop of such assignments. -/

namespace Sys2Proof.Machine

/-- Two bytes with the same eight bits are the same byte. -/
theorem byte_ext {x y : Byte} (h : ∀ i, i < 8 → getBit x i = getBit y i) : x = y :=
  BitVec.eq_of_getLsbD_eq h

/-- A byte has no bit beyond bit 7. -/
theorem getBit_of_ge (b : Byte) {i : Nat} (h : 8 ≤ i) : getBit b i = false :=
  BitVec.getLsbD_of_ge b i h

/-- Bit `j` after `b[i] <- v`. -/
theorem getBit_putBit (b : Byte) (i j : Nat) (v : Bool) (hi : i < 8) (hj : j < 8) :
    getBit (putBit b i v) j = if j = i then v else getBit b j := by
  have h7 : i ≤ 7 := by omega
  by_cases hji : j = i
  · subst hji
    cases v <;> simp [putBit, setBit, clearBit, getBit, h7, hj]
  · rcases Nat.lt_or_gt_of_ne hji with h | h
    · cases v <;> simp [putBit, setBit, clearBit, getBit, h7, hj, hji, h]
    · have h1 : ¬ j < i := by omega
      have h2 : ¬ j - i = 0 := by omega
      cases v <;> simp [putBit, setBit, clearBit, getBit, h7, hj, hji, h1, h2]

/-- Bit `j` after the assignments `out[i] <- f i` for each `i` of a list: `f j` where `j` is in the list, else the
bit from before. -/
theorem getBit_assign (f : Nat → Bool) (is : List Nat) (his : ∀ i ∈ is, i < 8) (b : Byte) (j : Nat)
    (hj : j < 8) :
    getBit (is.foldl (fun out i => putBit out i (f i)) b) j = if j ∈ is then f j else getBit b j := by
  induction is generalizing b with
  | nil => simp
  | cons i rest ih =>
    have hrest : ∀ k ∈ rest, k < 8 := fun k hk => his k (List.mem_cons_of_mem i hk)
    rw [List.foldl_cons, ih hrest]
    by_cases hmem : j ∈ rest
    · simp [hmem]
    · rw [if_neg hmem, getBit_putBit b i j (f i) (his i (List.mem_cons_self ..)) hj]
      by_cases hji : j = i
      · simp [hji]
      · simp [hji, hmem]

/-- Every bit position is visited. -/
theorem mem_bitPositions {i : Nat} : i ∈ bitPositions ↔ i < 8 := by
  constructor
  · intro h
    simp only [bitPositions, List.mem_cons, List.not_mem_nil, or_false] at h
    omega
  · intro h
    interval_cases i <;> decide

/-- `rev8(b)[i] = b[7-i]` (R9). -/
theorem getBit_rev8 (b : Byte) {i : Nat} (h : i < 8) : getBit (rev8 b) i = getBit b (7 - i) := by
  rw [rev8, getBit_assign (fun i => getBit b (7 - i)) _ (fun _ hk => mem_bitPositions.mp hk) _ _ h,
    if_pos (mem_bitPositions.mpr h)]

end Sys2Proof.Machine
end

