-- ==== Sys2Proof/Laws/State.lean ====
section
/-! SUPPORT. One lemma per field of State per update, each true by rfl, so that no later proof unfolds a record
update. -/

namespace Sys2Proof.Machine

/-! ## `State.write`: a register and the rest -/

@[simp] theorem write_iv_iv (s : State) (b : Byte) : (s.write .iv b).iv = .holding b := rfl
@[simp] theorem write_iv_key (s : State) (b : Byte) : (s.write .iv b).key = s.key := rfl
@[simp] theorem write_iv_ctr (s : State) (b : Byte) : (s.write .iv b).ctr = s.ctr := rfl
@[simp] theorem write_iv_rctr (s : State) (b : Byte) : (s.write .iv b).rctr = s.rctr := rfl
@[simp] theorem write_iv_chain (s : State) (b : Byte) : (s.write .iv b).chain = s.chain := rfl

@[simp] theorem write_key_iv (s : State) (b : Byte) : (s.write .key b).iv = s.iv := rfl
@[simp] theorem write_key_key (s : State) (b : Byte) : (s.write .key b).key = .holding b := rfl
@[simp] theorem write_key_ctr (s : State) (b : Byte) : (s.write .key b).ctr = s.ctr := rfl
@[simp] theorem write_key_rctr (s : State) (b : Byte) : (s.write .key b).rctr = s.rctr := rfl
@[simp] theorem write_key_chain (s : State) (b : Byte) : (s.write .key b).chain = s.chain := rfl

@[simp] theorem write_ctr_iv (s : State) (b : Byte) : (s.write .ctr b).iv = s.iv := rfl
@[simp] theorem write_ctr_key (s : State) (b : Byte) : (s.write .ctr b).key = s.key := rfl
@[simp] theorem write_ctr_ctr (s : State) (b : Byte) : (s.write .ctr b).ctr = .holding b := rfl
@[simp] theorem write_ctr_rctr (s : State) (b : Byte) : (s.write .ctr b).rctr = s.rctr := rfl
@[simp] theorem write_ctr_chain (s : State) (b : Byte) : (s.write .ctr b).chain = s.chain := rfl

@[simp] theorem write_rctr_iv (s : State) (b : Byte) : (s.write .rctr b).iv = s.iv := rfl
@[simp] theorem write_rctr_key (s : State) (b : Byte) : (s.write .rctr b).key = s.key := rfl
@[simp] theorem write_rctr_ctr (s : State) (b : Byte) : (s.write .rctr b).ctr = s.ctr := rfl
@[simp] theorem write_rctr_rctr (s : State) (b : Byte) : (s.write .rctr b).rctr = .holding b := rfl
@[simp] theorem write_rctr_chain (s : State) (b : Byte) : (s.write .rctr b).chain = s.chain := rfl

@[simp] theorem write_chain_iv (s : State) (b : Byte) : (s.write .chain b).iv = s.iv := rfl
@[simp] theorem write_chain_key (s : State) (b : Byte) : (s.write .chain b).key = s.key := rfl
@[simp] theorem write_chain_ctr (s : State) (b : Byte) : (s.write .chain b).ctr = s.ctr := rfl
@[simp] theorem write_chain_rctr (s : State) (b : Byte) : (s.write .chain b).rctr = s.rctr := rfl
@[simp] theorem write_chain_chain (s : State) (b : Byte) : (s.write .chain b).chain = .holding b := rfl

@[simp] theorem write_status (s : State) (r : RegName) (b : Byte) : (s.write r b).status = s.status := by cases r <;> rfl
@[simp] theorem write_inbox (s : State) (r : RegName) (b : Byte) : (s.write r b).inbox = s.inbox := by cases r <;> rfl
@[simp] theorem write_responses (s : State) (r : RegName) (b : Byte) : (s.write r b).responses = s.responses := by cases r <;> rfl
@[simp] theorem write_faults (s : State) (r : RegName) (b : Byte) : (s.write r b).faults = s.faults := by cases r <;> rfl
@[simp] theorem write_index (s : State) (r : RegName) (b : Byte) : (s.write r b).index = s.index := by cases r <;> rfl
@[simp] theorem write_hosts (s : State) (r : RegName) (b : Byte) : (s.write r b).hosts = s.hosts := by cases r <;> rfl

/-! ## `respond` -/

@[simp] theorem respond_iv (d : Byte) (s : State) : (respond d s).iv = s.iv := rfl
@[simp] theorem respond_key (d : Byte) (s : State) : (respond d s).key = s.key := rfl
@[simp] theorem respond_ctr (d : Byte) (s : State) : (respond d s).ctr = s.ctr := rfl
@[simp] theorem respond_rctr (d : Byte) (s : State) : (respond d s).rctr = s.rctr := rfl
@[simp] theorem respond_chain (d : Byte) (s : State) : (respond d s).chain = s.chain := rfl
@[simp] theorem respond_status (d : Byte) (s : State) : (respond d s).status = s.status := rfl
@[simp] theorem respond_inbox (d : Byte) (s : State) : (respond d s).inbox = s.inbox := rfl
@[simp] theorem respond_responses (d : Byte) (s : State) : (respond d s).responses = s.responses ++ [s.status.byte ++ d] := rfl
@[simp] theorem respond_faults (d : Byte) (s : State) : (respond d s).faults = s.faults := rfl
@[simp] theorem respond_index (d : Byte) (s : State) : (respond d s).index = s.index + 1 := rfl
@[simp] theorem respond_hosts (d : Byte) (s : State) : (respond d s).hosts = s.hosts := rfl

/-! ## `raiseError` -/

@[simp] theorem raiseError_iv (e : ErrorCode) (w : CommandWord) (s : State) : (raiseError e w s).iv = s.iv := rfl
@[simp] theorem raiseError_key (e : ErrorCode) (w : CommandWord) (s : State) : (raiseError e w s).key = s.key := rfl
@[simp] theorem raiseError_ctr (e : ErrorCode) (w : CommandWord) (s : State) : (raiseError e w s).ctr = s.ctr := rfl
@[simp] theorem raiseError_rctr (e : ErrorCode) (w : CommandWord) (s : State) :
    (raiseError e w s).rctr = s.rctr := rfl
@[simp] theorem raiseError_chain (e : ErrorCode) (w : CommandWord) (s : State) :
    (raiseError e w s).chain = s.chain := rfl
@[simp] theorem raiseError_status (e : ErrorCode) (w : CommandWord) (s : State) :
    (raiseError e w s).status = s.status.afterError e := rfl
@[simp] theorem raiseError_inbox (e : ErrorCode) (w : CommandWord) (s : State) :
    (raiseError e w s).inbox = s.inbox := rfl
@[simp] theorem raiseError_responses (e : ErrorCode) (w : CommandWord) (s : State) :
    (raiseError e w s).responses = s.responses ++ [(s.status.afterError e).byte ++ 0x00#8] := rfl
@[simp] theorem raiseError_faults (e : ErrorCode) (w : CommandWord) (s : State) :
    (raiseError e w s).faults = s.faults ++ [⟨e, w, s.index⟩] := rfl
@[simp] theorem raiseError_index (e : ErrorCode) (w : CommandWord) (s : State) :
    (raiseError e w s).index = s.index + 1 := rfl
@[simp] theorem raiseError_hosts (e : ErrorCode) (w : CommandWord) (s : State) :
    (raiseError e w s).hosts = s.hosts := rfl

/-! ## `State.awaiting` -/

@[simp] theorem awaiting_iv (s : State) (rest : List Input) : (s.awaiting rest).iv = s.iv := rfl
@[simp] theorem awaiting_key (s : State) (rest : List Input) : (s.awaiting rest).key = s.key := rfl
@[simp] theorem awaiting_ctr (s : State) (rest : List Input) : (s.awaiting rest).ctr = s.ctr := rfl
@[simp] theorem awaiting_rctr (s : State) (rest : List Input) : (s.awaiting rest).rctr = s.rctr := rfl
@[simp] theorem awaiting_chain (s : State) (rest : List Input) : (s.awaiting rest).chain = s.chain := rfl
@[simp] theorem awaiting_status (s : State) (rest : List Input) : (s.awaiting rest).status = s.status := rfl
@[simp] theorem awaiting_inbox (s : State) (rest : List Input) : (s.awaiting rest).inbox = rest := rfl
@[simp] theorem awaiting_responses (s : State) (rest : List Input) : (s.awaiting rest).responses = s.responses := rfl
@[simp] theorem awaiting_faults (s : State) (rest : List Input) : (s.awaiting rest).faults = s.faults := rfl
@[simp] theorem awaiting_index (s : State) (rest : List Input) : (s.awaiting rest).index = s.index := rfl
@[simp] theorem awaiting_hosts (s : State) (rest : List Input) : (s.awaiting rest).hosts = s.hosts := rfl

/-! ## `applyReset` -/

@[simp] theorem applyReset_iv (s : State) : (applyReset s).iv = .noValue := rfl
@[simp] theorem applyReset_key (s : State) : (applyReset s).key = .noValue := rfl
@[simp] theorem applyReset_ctr (s : State) : (applyReset s).ctr = .noValue := rfl
@[simp] theorem applyReset_rctr (s : State) : (applyReset s).rctr = .noValue := rfl
@[simp] theorem applyReset_chain (s : State) : (applyReset s).chain = .noValue := rfl
@[simp] theorem applyReset_status (s : State) : (applyReset s).status = ⟨false, false, false, false⟩ := rfl
@[simp] theorem applyReset_inbox (s : State) : (applyReset s).inbox = s.inbox := rfl
@[simp] theorem applyReset_responses (s : State) : (applyReset s).responses = s.responses := rfl
@[simp] theorem applyReset_faults (s : State) : (applyReset s).faults = s.faults := rfl
@[simp] theorem applyReset_index (s : State) : (applyReset s).index = 0 := rfl
@[simp] theorem applyReset_hosts (s : State) : (applyReset s).hosts = s.hosts := rfl

/-! ## Registers as values -/

@[simp] theorem holding_byte (b : Byte) : (Reg.holding b).byte = b := rfl
@[simp] theorem holding_written (b : Byte) : (Reg.holding b).written = true := rfl
@[simp] theorem holding_value (b : Byte) : (Reg.holding b).value = some b := rfl
@[simp] theorem noValue_value : Reg.noValue.value = none := rfl
@[simp] theorem noValue_written : Reg.noValue.written = false := rfl
@[simp] theorem value_of_written (b : Byte) : (Reg.mk b true).value = some b := rfl

@[simp] theorem reg_iv (s : State) : s.reg .iv = s.iv := rfl
@[simp] theorem reg_key (s : State) : s.reg .key = s.key := rfl
@[simp] theorem reg_ctr (s : State) : s.reg .ctr = s.ctr := rfl
@[simp] theorem reg_rctr (s : State) : s.reg .rctr = s.rctr := rfl
@[simp] theorem reg_chain (s : State) : s.reg .chain = s.chain := rfl

/-- A register holds a value exactly where it is written. -/
theorem value_eq_some (r : Reg) (b : Byte) : r.value = some b ↔ r = .holding b := by
  cases r with
  | mk c w => cases w <;> simp [Reg.value, Reg.holding]

/-- A written register has a value. -/
theorem exists_value_of_written {r : Reg} (h : r.written = true) : ∃ b, r.value = some b :=
  ⟨r.byte, by simp [Reg.value, h]⟩

/-! ## STATUS -/

@[simp] theorem afterInit_keyed (st : Status) : st.afterInit.keyed = true := rfl
@[simp] theorem afterInit_opened (st : Status) : st.afterInit.opened = false := rfl
@[simp] theorem afterInit_perr (st : Status) : st.afterInit.perr = st.perr := rfl
@[simp] theorem afterInit_ill (st : Status) : st.afterInit.ill = st.ill := rfl
@[simp] theorem afterBegin_keyed (st : Status) : st.afterBegin.keyed = st.keyed := rfl
@[simp] theorem afterBegin_opened (st : Status) : st.afterBegin.opened = true := rfl
@[simp] theorem afterBegin_perr (st : Status) : st.afterBegin.perr = st.perr := rfl
@[simp] theorem afterBegin_ill (st : Status) : st.afterBegin.ill = st.ill := rfl
@[simp] theorem afterError_keyed (st : Status) (e : ErrorCode) : (st.afterError e).keyed = st.keyed := by
  cases e <;> rfl
@[simp] theorem afterError_opened (st : Status) (e : ErrorCode) : (st.afterError e).opened = st.opened := by
  cases e <;> rfl

end Sys2Proof.Machine
end

