-- ==== Sys2Proof/Laws/Ops.lean ====
section
/-! SUPPORT. What each shared operation can do, said once: a proof cites these lemmas and does not unfold the
operation. -/

namespace Sys2Proof.Machine

/-! ## Reading a register -/

/-- Reading a register that holds `b` goes on with `b`. -/
theorem withReg_of_value {s : State} {r : RegName} {b : Byte} (h : (s.reg r).value = some b)
    (k : Byte → Result) : withReg s r k = k b := by
  simp [withReg, h]

/-- Reading a register that holds no value is the fault of R35. -/
theorem withReg_of_noValue {s : State} {r : RegName} (h : (s.reg r).value = none) (k : Byte → Result) :
    withReg s r k = .fault (.unwrittenRead r) := by
  simp [withReg, h]

/-- A read that goes on found a value. -/
theorem withReg_next {s t : State} {r : RegName} {k : Byte → Result} (h : withReg s r k = .next t) :
    ∃ b, (s.reg r).value = some b ∧ k b = .next t := by
  unfold withReg at h
  split at h
  · exact ⟨_, ‹_›, h⟩
  · cases h

/-! ## The commands that read registers -/

/-- BEGIN with a key and with values in IV, KEY and CTR. -/
theorem execBegin_of_values {s : State} {iv key ctr : Byte} (hk : s.status.keyed = true)
    (hiv : s.iv.value = some iv) (hkey : s.key.value = some key) (hctr : s.ctr.value = some ctr) :
    execBegin s = .next (respond 0x00
      { (s.write .rctr (nextKeystreamCounter ctr key)).write .chain iv with status := s.status.afterBegin }) := by
  simp only [execBegin, hk, if_true, withReg_of_value (r := .iv) hiv, withReg_of_value (r := .key) hkey,
    withReg_of_value (r := .ctr) hctr, write_status]

/-- Everything a BEGIN that answers a next state can have done. -/
theorem execBegin_next {s t : State} (h : execBegin s = .next t) :
    (s.status.keyed = false ∧ t = raiseError .noKey (encode .begin) s) ∨
    (s.status.keyed = true ∧ ∃ iv key ctr, s.iv.value = some iv ∧ s.key.value = some key ∧
      s.ctr.value = some ctr ∧ t = respond 0x00
        { (s.write .rctr (nextKeystreamCounter ctr key)).write .chain iv with
          status := s.status.afterBegin }) := by
  cases hk : s.status.keyed
  · simp only [execBegin, hk, Bool.false_eq_true, if_false, Host.Outcome.next.injEq] at h
    exact .inl ⟨rfl, h.symm⟩
  · have h0 := h
    simp only [execBegin, hk, if_true] at h
    obtain ⟨ctr, hc, h⟩ := withReg_next h
    obtain ⟨key, hkey, h⟩ := withReg_next h
    obtain ⟨iv, hi, h⟩ := withReg_next h
    rw [execBegin_of_values hk hi hkey hc] at h0
    exact .inr ⟨rfl, iv, key, ctr, hi, hkey, hc, (Host.Outcome.next.inj h0).symm⟩

/-- One byte of an open stream with values in RCTR, CHAIN and KEY. -/
theorem streamByte_of_values {s : State} {r ch key : Byte} (w : CommandWord) (x : Byte) (f : Byte → Byte)
    (ho : s.status.opened = true) (hr : s.rctr.value = some r) (hch : s.chain.value = some ch)
    (hkey : s.key.value = some key) :
    streamByte w x f s = .next (respond (mixByte x r ch)
      ((s.write .chain (f (mixByte x r ch))).write .rctr (nextKeystreamCounter (increment r) key))) := by
  simp only [streamByte, ho, if_true, withReg_of_value (r := .rctr) hr, withReg_of_value (r := .chain) hch,
    withReg_of_value (r := .key) hkey]

/-- Everything a byte command that answers a next state can have done. -/
theorem streamByte_next {s t : State} {w : CommandWord} {x : Byte} {f : Byte → Byte}
    (h : streamByte w x f s = .next t) :
    (s.status.opened = false ∧ t = raiseError .noStream w s) ∨
    (s.status.opened = true ∧ ∃ r ch key, s.rctr.value = some r ∧ s.chain.value = some ch ∧
      s.key.value = some key ∧ t = respond (mixByte x r ch)
        ((s.write .chain (f (mixByte x r ch))).write .rctr (nextKeystreamCounter (increment r) key))) := by
  cases ho : s.status.opened
  · simp only [streamByte, ho, Bool.false_eq_true, if_false, Host.Outcome.next.injEq] at h
    exact .inl ⟨rfl, h.symm⟩
  · have h0 := h
    simp only [streamByte, ho, if_true] at h
    obtain ⟨r, hr, h⟩ := withReg_next h
    obtain ⟨ch, hch, h⟩ := withReg_next h
    obtain ⟨key, hkey, h⟩ := withReg_next h
    rw [streamByte_of_values w x f ho hr hch hkey] at h0
    exact .inr ⟨rfl, r, ch, key, hr, hch, hkey, (Host.Outcome.next.inj h0).symm⟩

/-! ## The sequencer -/

/-- A word that is a command runs as that command. -/
theorem runWord_of_legal {w : CommandWord} {i : Instr} (h : decode w = .legal i) (s : State) :
    runWord w s = exec i s := by
  simp [runWord, h]

/-- A word that is no command raises IllegalCommand. -/
theorem runWord_of_illegal {w : CommandWord} {r : IllegalReason} (h : decode w = .illegal r) (s : State) :
    runWord w s = .next (raiseError .illegalCommand w s) := by
  simp [runWord, h]

/-- The step on a command word of the one host. -/
theorem step_command {s : State} {w : CommandWord} {rest : List Input} (hh : s.hosts ≤ 1)
    (hi : s.inbox = .command w :: rest) : step s = runWord w (s.awaiting rest) := by
  simp [step, takeInput, hi, Nat.not_lt.mpr hh]

/-- Everything a step that answers a next state can have done. -/
theorem step_next {s t : State} (h : step s = .next t) :
    (s.inbox = [] ∧ t = s) ∨
    (∃ p rest, s.inbox = .reset p :: rest ∧ t = applyReset (s.awaiting rest)) ∨
    (∃ w rest r, s.inbox = .command w :: rest ∧ decode w = .illegal r ∧
      t = raiseError .illegalCommand w (s.awaiting rest)) ∨
    (∃ w rest i, s.inbox = .command w :: rest ∧ decode w = .legal i ∧ exec i (s.awaiting rest) = .next t) := by
  simp only [step, takeInput] at h
  split at h
  · cases h
  · split at h
    · exact .inl ⟨‹_›, (Host.Outcome.next.inj h).symm⟩
    · rename_i w rest hi
      cases hd : decode w with
      | legal i => exact .inr (.inr (.inr ⟨w, rest, i, hi, hd, by rwa [runWord_of_legal hd] at h⟩))
      | illegal r =>
        rw [runWord_of_illegal hd] at h
        exact .inr (.inr (.inl ⟨w, rest, r, hi, hd, (Host.Outcome.next.inj h).symm⟩))
    · exact .inr (.inl ⟨_, _, ‹_›, (Host.Outcome.next.inj h).symm⟩)
    · cases h

end Sys2Proof.Machine
end

