-- ==== Sys2Proof/Laws/Exec.lean ====
section
/-! SUPPORT. Everything a command that answers a next state can have done, said once for each command that reads a
register and once for all ten: a proof over all commands cites `exec_next` and does not unfold a meaning. -/

namespace Sys2Proof.Machine

/-- The state after one byte of an open stream: the answer, the byte that becomes CHAIN, the next counter. -/
abbrev byteAnswered (s : State) (output chain counter : Byte) : State :=
  respond output ((s.write .chain chain).write .rctr counter)

/-- ENCB in an open stream. -/
theorem execEncb_of_values {s : State} {r ch key : Byte} (x : Byte) (ho : s.status.opened = true)
    (hr : s.rctr.value = some r) (hch : s.chain.value = some ch) (hkey : s.key.value = some key) :
    exec (.encb x) s = .next
      (byteAnswered s (mixByte x r ch) (mixByte x r ch) (nextKeystreamCounter (increment r) key)) :=
  streamByte_of_values (encode (.encb x)) x (fun output => output) ho hr hch hkey

/-- DECB in an open stream. -/
theorem execDecb_of_values {s : State} {r ch key : Byte} (y : Byte) (ho : s.status.opened = true)
    (hr : s.rctr.value = some r) (hch : s.chain.value = some ch) (hkey : s.key.value = some key) :
    exec (.decb y) s = .next
      (byteAnswered s (mixByte y r ch) y (nextKeystreamCounter (increment r) key)) :=
  streamByte_of_values (encode (.decb y)) y (fun _ => y) ho hr hch hkey

/-- BEGIN without a key. -/
theorem execBegin_of_noKey {s : State} (hk : s.status.keyed = false) :
    exec .begin s = .next (raiseError .noKey (encode .begin) s) := by
  simp only [exec, execBegin, hk, Bool.false_eq_true, if_false]

/-- ENCB without a stream. -/
theorem execEncb_of_noStream {s : State} (x : Byte) (ho : s.status.opened = false) :
    exec (.encb x) s = .next (raiseError .noStream (encode (.encb x)) s) := by
  simp only [exec, execEncb, streamByte, ho, Bool.false_eq_true, if_false]

/-- DECB without a stream. -/
theorem execDecb_of_noStream {s : State} (y : Byte) (ho : s.status.opened = false) :
    exec (.decb y) s = .next (raiseError .noStream (encode (.decb y)) s) := by
  simp only [exec, execDecb, streamByte, ho, Bool.false_eq_true, if_false]

/-- The commands that read and write no register (20_memory.md R47). -/
def isStateless : Instr → Bool
  | .nkc _ _ => true
  | .mix _ _ _ => true
  | .getbit _ _ => true
  | .setbit _ _ => true
  | .clrbit _ _ => true
  | .rdstat => true
  | .init _ _ _ => false
  | .begin => false
  | .encb _ => false
  | .decb _ => false

/-- A stateless command does nothing but answer. -/
theorem exec_of_stateless {i : Instr} (h : isStateless i = true) (s : State) :
    ∃ d, exec i s = .next (respond d s) := by
  cases i <;> first | exact ⟨_, rfl⟩ | cases h

/-- How a command can answer a next state, command by command. -/
inductive Answers (s : State) : Instr → State → Prop where
  | init (iv key ctr : Byte) : Answers s (.init iv key ctr) (respond 0x00
      { ((s.write .iv iv).write .key key).write .ctr ctr with status := s.status.afterInit })
  | beginError (hk : s.status.keyed = false) : Answers s .begin (raiseError .noKey (encode .begin) s)
  | begin (iv key ctr : Byte) (hk : s.status.keyed = true) (hiv : s.iv.value = some iv)
      (hkey : s.key.value = some key) (hctr : s.ctr.value = some ctr) : Answers s .begin (respond 0x00
      { (s.write .rctr (nextKeystreamCounter ctr key)).write .chain iv with status := s.status.afterBegin })
  | encbError (x : Byte) (ho : s.status.opened = false) :
      Answers s (.encb x) (raiseError .noStream (encode (.encb x)) s)
  | encb (x r ch key : Byte) (ho : s.status.opened = true) (hr : s.rctr.value = some r)
      (hch : s.chain.value = some ch) (hkey : s.key.value = some key) : Answers s (.encb x)
      (byteAnswered s (mixByte x r ch) (mixByte x r ch) (nextKeystreamCounter (increment r) key))
  | decbError (y : Byte) (ho : s.status.opened = false) :
      Answers s (.decb y) (raiseError .noStream (encode (.decb y)) s)
  | decb (y r ch key : Byte) (ho : s.status.opened = true) (hr : s.rctr.value = some r)
      (hch : s.chain.value = some ch) (hkey : s.key.value = some key) : Answers s (.decb y)
      (byteAnswered s (mixByte y r ch) y (nextKeystreamCounter (increment r) key))
  | stateless (i : Instr) (d : Byte) (h : isStateless i = true) : Answers s i (respond d s)

/-- Everything a command that answers a next state can have done. -/
theorem exec_next {i : Instr} {s t : State} (h : exec i s = .next t) : Answers s i t := by
  cases i with
  | init iv key ctr => exact (Host.Outcome.next.inj h) ▸ .init iv key ctr
  | begin =>
    have h : execBegin s = .next t := h
    rcases execBegin_next h with ⟨hk, rfl⟩ | ⟨hk, iv, key, ctr, hiv, hkey, hctr, rfl⟩
    · exact .beginError hk
    · exact .begin iv key ctr hk hiv hkey hctr
  | encb x =>
    have h : streamByte (encode (.encb x)) x (fun output => output) s = .next t := h
    rcases streamByte_next h with ⟨ho, rfl⟩ | ⟨ho, r, ch, key, hr, hch, hkey, rfl⟩
    · exact .encbError x ho
    · exact .encb x r ch key ho hr hch hkey
  | decb y =>
    have h : streamByte (encode (.decb y)) y (fun _ => y) s = .next t := h
    rcases streamByte_next h with ⟨ho, rfl⟩ | ⟨ho, r, ch, key, hr, hch, hkey, rfl⟩
    · exact .decbError y ho
    · exact .decb y r ch key ho hr hch hkey
  | nkc ctr key => exact (Host.Outcome.next.inj h) ▸ .stateless (.nkc ctr key) _ rfl
  | mix x ctr chain => exact (Host.Outcome.next.inj h) ▸ .stateless (.mix x ctr chain) _ rfl
  | getbit b j => exact (Host.Outcome.next.inj h) ▸ .stateless (.getbit b j) _ rfl
  | setbit b j => exact (Host.Outcome.next.inj h) ▸ .stateless (.setbit b j) _ rfl
  | clrbit b j => exact (Host.Outcome.next.inj h) ▸ .stateless (.clrbit b j) _ rfl
  | rdstat => exact (Host.Outcome.next.inj h) ▸ .stateless .rdstat _ rfl

end Sys2Proof.Machine
end

