-- ==== Sys2Proof/Laws/PerInstr.lean ====
section
/-! SUPPORT. Family `EncodesInRow`: the word of every command is selected by its own row of the opcode map, so its
opcode is the row's and every should-be-zero field is zero (30_encoding.md R65, R66). One lemma per command. -/

namespace Sys2Proof.Laws.EncodesInRow

/-- The row of a command, by its place in the opcode map. -/
def rowIndex : Instr → Nat
  | .init _ _ _ => 0
  | .begin => 1
  | .encb _ => 2
  | .decb _ => 3
  | .nkc _ _ => 4
  | .mix _ _ _ => 5
  | .getbit _ _ => 6
  | .setbit _ _ => 7
  | .clrbit _ _ => 8
  | .rdstat => 9

/-- The word of `i` is selected by the row of `i`. -/
def Statement (i : Instr) : Prop := (opcodeRows[rowIndex i]?).map (fun r => r.selects (encode i)) = some true

/-- A word of format `C` is masked field by field. -/
theorem formatC_and (o i : BitVec 4) (a b c : Byte) (o' i' : BitVec 4) (a' b' c' : Byte) :
    formatC o i a b c &&& formatC o' i' a' b' c' =
      formatC (o &&& o') (i &&& i') (a &&& a') (b &&& b') (c &&& c') := by
  have h : (o ++ i ++ a ++ b ++ c) &&& (o' ++ i' ++ a' ++ b' ++ c') =
      (o &&& o') ++ (i &&& i') ++ (a &&& a') ++ (b &&& b') ++ (c &&& c') := by
    simp only [BitVec.and_append]
  exact h

/-- A word of format `C` meets a mask and pattern that its fields meet one by one. -/
theorem selects_of_fields {o i : BitVec 4} {a b c : Byte} {mask pattern : CommandWord} {n : String}
    {f : BitIndex → Byte → Byte → Byte → Instr} (o' i' : BitVec 4) (a' b' c' : Byte)
    (hm : mask = formatC o' i' a' b' c')
    (hp : formatC (o &&& o') (i &&& i') (a &&& a') (b &&& b') (c &&& c') = pattern) :
    some (OpcodeRow.selects ⟨n, pattern, mask, f⟩ (formatC o i a b c)) = some true := by
  rw [OpcodeRow.selects, hm, formatC_and, hp, beq_self_eq_true]

theorem init (iv key ctr : Byte) : Statement (.init iv key ctr) :=
  selects_of_fields 0xF 0xF 0#8 0#8 0#8 (by decide) (by simp only [BitVec.and_zero]; decide)
theorem begin : Statement .begin := rfl
theorem encb (x : Byte) : Statement (.encb x) :=
  selects_of_fields 0xF 0xF 0xFF 0xFF 0#8 (by decide) (by simp only [BitVec.and_zero]; decide)
theorem decb (y : Byte) : Statement (.decb y) :=
  selects_of_fields 0xF 0xF 0xFF 0xFF 0#8 (by decide) (by simp only [BitVec.and_zero]; decide)
theorem nkc (ctr key : Byte) : Statement (.nkc ctr key) :=
  selects_of_fields 0xF 0xF 0#8 0#8 0xFF (by decide) (by simp only [BitVec.and_zero]; decide)
theorem mix (x ctr chain : Byte) : Statement (.mix x ctr chain) :=
  selects_of_fields 0xF 0xF 0#8 0#8 0#8 (by decide) (by simp only [BitVec.and_zero]; decide)
theorem getbit (b : Byte) (i : BitIndex) : Statement (.getbit b i) :=
  selects_of_fields 0xF 0#4 0xFF 0xFF 0#8 (by decide) (by simp only [BitVec.and_zero]; decide)
theorem setbit (b : Byte) (i : BitIndex) : Statement (.setbit b i) :=
  selects_of_fields 0xF 0#4 0xFF 0xFF 0#8 (by decide) (by simp only [BitVec.and_zero]; decide)
theorem clrbit (b : Byte) (i : BitIndex) : Statement (.clrbit b i) :=
  selects_of_fields 0xF 0#4 0xFF 0xFF 0#8 (by decide) (by simp only [BitVec.and_zero]; decide)
theorem rdstat : Statement .rdstat := rfl

end Sys2Proof.Laws.EncodesInRow
end

