-- ==== Sys2Proof/Laws/Runs.lean ====
section
/-! SUPPORT. Runs of several steps, taken apart and put together. -/

namespace Sys2Proof.Machine

/-- No step leaves the state as it is. -/
theorem runs_zero {s t : State} : Runs 0 s t ↔ s = t :=
  ⟨fun h => Host.Outcome.next.inj h, fun h => congrArg Host.Outcome.next h⟩

/-- One step and then a run. -/
theorem runs_succ {n : Nat} {s u : State} : Runs (n + 1) s u ↔ ∃ t, step s = .next t ∧ Runs n t u := by
  unfold Runs
  rw [runSteps]
  cases step s <;> simp

/-- A run and then a run. -/
theorem runs_add {m n : Nat} {s t u : State} (h₁ : Runs m s t) (h₂ : Runs n t u) : Runs (m + n) s u := by
  induction m generalizing s with
  | zero => rw [runs_zero] at h₁; rw [Nat.zero_add, h₁]; exact h₂
  | succ m ih =>
    obtain ⟨t', hs, hr⟩ := runs_succ.mp h₁
    rw [Nat.succ_add]
    exact runs_succ.mpr ⟨t', hs, ih hr⟩

end Sys2Proof.Machine
end

