-- ==== Sys2Proof/Tests/Slice0.lean ====
section
/-! SUPPORT. The model's own tests. Every expected value is one that spec/95_test_vectors.md or a rule's worked example
gives; the table or rule is named beside the test. The second half shows, for each statement with hypotheses, a
concrete state and operands that meet them. -/

namespace Sys2Proof.Tests

open Sys2Proof.Machine

/-! ## Small states -/

/-- After `INIT 0xB1, 0xCB, 0x35` (L3 P1). -/
def keyed (inbox : List Input) : State :=
  { State.reset with
    iv := ⟨0xB1, true⟩, key := ⟨0xCB, true⟩, ctr := ⟨0x35, true⟩
    status := ⟨true, false, false, false⟩, inbox := inbox, index := 1 }

/-- After `INIT 0xB1, 0xCB, 0x35` and `BEGIN` (L3 P1). -/
def streaming (inbox : List Input) : State :=
  { keyed inbox with
    rctr := ⟨0xBF, true⟩, chain := ⟨0xB1, true⟩, status := ⟨true, true, false, false⟩, index := 2 }

/-- After reset, with inputs delivered. -/
def fresh (inbox : List Input) : State := { State.reset with inbox := inbox }

/-- The response of one step on the word `w` from the state `s`. -/
def responseTo (s : List Input → State) (w : CommandWord) : Option (List ResponseWord) :=
  (next? (step (s [.command w]))).map State.responses

/-- What one step on the word `w` from the state `s` leaves. -/
def after (s : List Input → State) (w : CommandWord) : Option State := next? (step (s [.command w]))

/-! ## Decoding: words written out from the pattern strings of R65 (L2.1) -/

theorem test_decode_init : decode 0b00010000101100011100101100110101 = .legal (.init 0xB1 0xCB 0x35) := by decide
theorem test_decode_begin : decode 0b00100000000000000000000000000000 = .legal .begin := by decide
theorem test_decode_encb : decode 0b00110000000000000000000001001000 = .legal (.encb 0x48) := by decide
theorem test_decode_decb : decode 0b01000000000000000000000011111001 = .legal (.decb 0xF9) := by decide
theorem test_decode_nkc : decode 0b01010000001101011100101100000000 = .legal (.nkc 0x35 0xCB) := by decide
theorem test_decode_mix : decode 0b01100000010010001011111110110001 = .legal (.mix 0x48 0xBF 0xB1) := by decide
theorem test_decode_getbit : decode 0b01111111000000000000000000010010 = .legal (.getbit 0x12 15) := by decide
theorem test_decode_setbit : decode 0b10000111000000000000000000000000 = .legal (.setbit 0x00 7) := by decide
theorem test_decode_clrbit : decode 0b10010000000000000000000011111111 = .legal (.clrbit 0xFF 0) := by decide
theorem test_decode_rdstat : decode 0b10100000000000000000000000000000 = .legal .rdstat := by decide

/-- The illegal words of L2.1. -/
theorem test_decode_illegal :
    decode 0x00000000 = .illegal .reservedOpcode ∧ decode 0xB0000000 = .illegal .reservedOpcode ∧
    decode 0xF0FFFFFF = .illegal .reservedOpcode ∧ decode 0x11B1CB35 = .illegal .sbzNonzero ∧
    decode 0x20000001 = .illegal .sbzNonzero ∧ decode 0x30000100 = .illegal .sbzNonzero ∧
    decode 0x30010048 = .illegal .sbzNonzero ∧ decode 0x500000FF = .illegal .sbzNonzero ∧
    decode 0x61000000 = .illegal .sbzNonzero ∧ decode 0x70010048 = .illegal .sbzNonzero ∧
    decode 0x8000FF00 = .illegal .sbzNonzero ∧ decode 0xA0000001 = .illegal .sbzNonzero := by decide

/-- The host's view of the table: a row's word, and the same word with its high bits cut off. -/
theorem test_decodeTableWord :
    decodeTableWord 32 0x10B1CB35 = some (.init 0xB1 0xCB 0x35) ∧ decodeTableWord 8 0x35 = none := by decide

/-! ## WellFormed: an ill-formed word for each check -/

/-- Opcodes 0x0, 0xB and 0xF are reserved (R67). -/
theorem test_wellFormed_opcode :
    wellFormedWord 0x00000000 = false ∧ wellFormedWord 0xB0000000 = false ∧
    wellFormedWord 0xF0FFFFFF = false := by decide
/-- A nonzero `idx` where it is should-be-zero (R66). -/
theorem test_wellFormed_idx :
    wellFormedWord 0x11B1CB35 = false ∧ wellFormedWord 0x61000000 = false ∧
    wellFormedWord 0x7F000012 = true := by decide
/-- A nonzero `a` where it is should-be-zero (R66). -/
theorem test_wellFormed_a :
    wellFormedWord 0x30010048 = false ∧ wellFormedWord 0x90010000 = false ∧
    wellFormedWord 0x5035CB00 = true := by decide
/-- A nonzero `b` where it is should-be-zero (R66). -/
theorem test_wellFormed_b :
    wellFormedWord 0x30000100 = false ∧ wellFormedWord 0x8000FF00 = false ∧
    wellFormedWord 0x10B1CB35 = true := by decide
/-- A nonzero `c` where it is should-be-zero (R66). -/
theorem test_wellFormed_c :
    wellFormedWord 0x500000FF = false ∧ wellFormedWord 0x20000001 = false ∧
    wellFormedWord 0x300000FF = true := by decide

/-! ## The commands -/

/-- INIT closes an open stream and keeps RCTR and CHAIN (L2.2, row 2). -/
theorem test_init_closes_stream :
    (after streaming 0x100000FF).map (fun t => (t.responses, t.ctr.value, t.rctr.value, t.chain.value)) =
      some ([0x0100], some 0xFF, some 0xBF, some 0xB1) := by decide
/-- INIT keeps the sticky bits (L2.2, row 3). -/
theorem test_init_keeps_sticky_bits :
    responseTo (fun q => { fresh q with status := ⟨false, false, true, true⟩ }) 0x10FFFFFF = some [0x0D00] := by
  decide
/-- BEGIN loads RCTR and CHAIN (R120, example). -/
theorem test_begin_opens_stream :
    (after keyed 0x20000000).map (fun t => (t.responses, t.rctr.value, t.chain.value)) =
      some ([0x0300], some 0xBF, some 0xB1) := by decide
/-- BEGIN before INIT is ProtocolError(NoKey) (L2.7). -/
theorem test_begin_without_key :
    (after fresh 0x20000000).map (fun t => (t.responses, t.faults)) =
      some ([0x0400], [⟨.noKey, 0x20000000, 0⟩]) := by decide
/-- ENCB chains its output (R121, example). -/
theorem test_encb_chains_output :
    (after streaming 0x30000048).map (fun t => (t.responses, t.chain.value, t.rctr.value)) =
      some ([0x03F9], some 0xF9, some 0x81) := by decide
/-- ENCB with the counter at 0xFF: the next counter is NKC(0x00, KEY) (R121 case 1; L2.3). -/
theorem test_encb_counter_wraps :
    (after (fun q => { streaming q with rctr := ⟨0xFF, true⟩ }) 0x30000010).map (fun t => t.rctr.value) =
      some (some 0x41) := by decide
/-- DECB chains its input (R122, example; P7 step 5). -/
theorem test_decb_chains_input :
    (after streaming 0x400000F9).map (fun t => (t.responses, t.chain.value, t.rctr.value)) =
      some ([0x0348], some 0xF9, some 0x81) := by decide
/-- DECB without a stream is ProtocolError(NoStream) (R151). -/
theorem test_decb_without_stream :
    (after keyed 0x40000000).map (fun t => (t.responses, t.faults)) =
      some ([0x0500], [⟨.noStream, 0x40000000, 1⟩]) := by decide
/-- NKC of an odd and of an even counter (L2.3). -/
theorem test_nkc_odd : responseTo fresh 0x5035CB00 = some [0x00BF] := by decide
theorem test_nkc_even : responseTo fresh 0x50C0CB00 = some [0x0081] := by decide
/-- MIX with straight and with mirrored chain bits (L2.4). -/
theorem test_mix_straight : responseTo fresh 0x6048BFB1 = some [0x00F9] := by decide
theorem test_mix_mirrored : responseTo fresh 0x60000001 = some [0x0080] := by decide
/-- GETBIT of a set and of a clear bit (L2.5). -/
theorem test_getbit_set : responseTo fresh 0x76000048 = some [0x0001] := by decide
theorem test_getbit_clear : responseTo fresh 0x77000048 = some [0x0000] := by decide
/-- SETBIT in range and out of range (L2.5). -/
theorem test_setbit_in_range : responseTo fresh 0x87000000 = some [0x0080] := by decide
theorem test_setbit_out_of_range : responseTo fresh 0x8800005A = some [0x005A] := by decide
/-- CLRBIT in range and out of range (L2.5). -/
theorem test_clrbit_in_range : responseTo fresh 0x900000FF = some [0x00FE] := by decide
theorem test_clrbit_out_of_range : responseTo fresh 0x9F00005A = some [0x005A] := by decide
/-- RDSTAT right after reset and inside a stream (R140). -/
theorem test_rdstat_after_reset : responseTo fresh 0xA0000000 = some [0x0000] := by decide
theorem test_rdstat_in_stream : responseTo streaming 0xA0000000 = some [0x0303] := by decide
/-- An illegal word wins over a protocol error (R155; L2.7). -/
theorem test_illegal_wins :
    (after fresh 0x30000100).map (fun t => (t.responses, t.faults)) =
      some ([0x0800], [⟨.illegalCommand, 0x30000100, 0⟩]) := by decide
/-- The word of the opcode table runs as the first command after reset. -/
theorem test_withFetchWord :
    (next? (step (State.reset.withFetchWord 32 0x10B1CB35))).map (fun t => (t.iv.value, t.responses)) =
      some (some 0xB1, [0x0100]) := by decide
/-- Reset in the middle of a run clears the sticky bits too (L2.8). -/
theorem test_reset_clears_everything :
    (next? (step { streaming [.reset none] with status := ⟨true, true, true, true⟩ })).map
      (fun t => (t.status.byte, t.key.value, t.index)) = some (0x00, none, 0) := by decide

/-! ## Streams and the assembler -/

/-- The "Hi!" scenario, both directions (L2.6). -/
theorem test_encode_hi : encodeBytes 0xB1 0xCB 0x35 [0x48, 0x69, 0x21] = [0xF9, 0xF6, 0xCF] := by decide
theorem test_decode_hi : decodeBytes 0xB1 0xCB 0x35 [0xF9, 0xF6, 0xCF] = [0x48, 0x69, 0x21] := by decide
/-- Encoding the ciphertext again does not decode it (R175). -/
theorem test_encode_twice : encodeBytes 0xB1 0xCB 0x35 [0xF9, 0xF6, 0xCF] = [0x48, 0xE4, 0x2B] := by decide
/-- Lines of the syntax of R70 (words of L2.1). -/
theorem test_assemble_lines :
    assemble ["INIT 0xB1, 0xCB, 0x35".toList, "begin ; opens".toList, "getbit 0x48, 6".toList,
      ".word 0x00000000".toList, "ENCODE [0x48, 105]".toList] =
      some [0x10B1CB35, 0x20000000, 0x76000048, 0x00000000, 0x20000000, 0x30000048, 0x30000069] := by decide
/-- A value out of range, a missing operand and an unknown mnemonic are assembly errors (R70). -/
theorem test_assemble_errors :
    assembleLine "ENCB 256".toList = none ∧ assembleLine "GETBIT 0x48, 16".toList = none ∧
    assembleLine "NKC 0x35".toList = none ∧ assembleLine "NOP".toList = none := by decide

/-! ## Witnesses: the hypotheses of each statement are met -/

theorem witness_EncodeInvertsDecode : decode 0x6048BFB1 = .legal (.mix 0x48 0xBF 0xB1) := by decide
theorem witness_AtMostOneRowSelectsAWord :
    opcodeRows.map (fun r => r.selects 0x8700005A) =
      [false, false, false, false, false, false, false, true, false, false] := by decide
/-- An odd counter, an even one, a key with bit 0 clear. -/
theorem witness_CounterEvolutionCornerCases :
    (0x35 : Byte).getLsbD 0 = true ∧ (0xC0 : Byte).getLsbD 0 = false ∧ (0xCA : Byte).getLsbD 0 = false ∧
    nextKeystreamCounter (nextKeystreamCounter 0x35 0xCA) 0xCA = 0x35 := by decide
/-- A palindromic chain byte, and two triples that agree at positions 0 and 7 only. -/
theorem witness_MixerCornerCases :
    rev8 0xA5 = 0xA5 ∧ (0x01 : Byte).getLsbD 0 = (0x7F : Byte).getLsbD 0 ∧
    (0x00 : Byte).getLsbD 0 = (0x3C : Byte).getLsbD 0 ∧ (0x81 : Byte).getLsbD 0 = (0xFF : Byte).getLsbD 0 ∧
    (0x81 : Byte).getLsbD (7 - 0) = (0xFF : Byte).getLsbD (7 - 0) := by decide
/-- The clauses at the bounds of their ranges: 7 in range, 8 and 15 out of range, two different positions. -/
theorem witness_BitPrimitiveLaws :
    getBit (setBit 0x00 7) 7 = true ∧ getBit (clearBit 0xFF 7) 7 = false ∧ setBit 0x5A 8 = 0x5A ∧
    clearBit 0x5A 15 = 0x5A ∧ getBit (setBit 0x00 7) 0 = getBit 0x00 0 := by decide
theorem witness_StatusByteLayout : (Status.byte ⟨true, true, true, true⟩) = 0x0F := by decide
theorem witness_Gated : Gated (streaming []) ∧ Gated (keyed []) ∧ Gated (fresh []) := by decide
theorem witness_StepKeepsGating : ∃ t, Gated (streaming []) ∧ step (streaming []) = .next t :=
  ⟨_, by decide, rfl⟩
/-- A keyed state whose CTR holds no value, and an open one whose CHAIN holds none. -/
theorem witness_UnwrittenReadFaults :
    ({ keyed [] with ctr := Reg.noValue }).status.keyed = true ∧
    ({ streaming [] with chain := Reg.noValue }).status.opened = true ∧
    exec .begin { keyed [] with ctr := Reg.noValue } = .fault (.unwrittenRead .ctr) ∧
    exec (.encb 0x48) { streaming [] with chain := Reg.noValue } = .fault (.unwrittenRead .chain) :=
  ⟨rfl, rfl, rfl, rfl⟩
theorem witness_BeginOpensStream :
    (keyed []).status.keyed = true ∧ (keyed []).iv.value = some 0xB1 ∧ (keyed []).key.value = some 0xCB ∧
    (keyed []).ctr.value = some 0x35 := by decide
/-- For ENCB, DECB and the clause of the side effects about them. -/
theorem witness_byte_command :
    (streaming []).status.opened = true ∧ (streaming []).rctr.value = some 0xBF ∧
    (streaming []).chain.value = some 0xB1 ∧ (streaming []).key.value = some 0xCB := by decide
theorem witness_ProtocolErrorEffect :
    (fresh []).status.keyed = false ∧ (keyed []).status.opened = false := by decide
theorem witness_IllegalWordEffect :
    CommandNext (streaming [.command 0x30000100]) 0x30000100 [] ∧ wellFormedWord 0x30000100 = false := by decide
/-- A command word next and a next state: for the statements about one step on a command word. -/
theorem witness_step_on_command :
    ∃ t, CommandNext (fresh [.command 0x40000000]) 0x40000000 [] ∧
      step (fresh [.command 0x40000000]) = .next t ∧ t.faults = [⟨.noStream, 0x40000000, 0⟩] :=
  ⟨_, by decide, rfl, rfl⟩
/-- A reset next and a next state. -/
theorem witness_step_on_reset :
    ∃ t, (streaming [.reset (some 0x30000048)]).hosts ≤ 1 ∧
      (streaming [.reset (some 0x30000048)]).inbox = .reset (some 0x30000048) :: [] ∧
      step (streaming [.reset (some 0x30000048)]) = .next t :=
  ⟨_, by decide, rfl, rfl⟩
theorem witness_StepRunsDecodedCommand :
    CommandNext (streaming [.command 0x30000048]) 0x30000048 [] ∧ decode 0x30000048 = .legal (.encb 0x48) := by
  decide
theorem witness_EveryCommandIsAnsweredOnce :
    Gated (streaming [.command 0x400000F9]) ∧ CommandNext (streaming [.command 0x400000F9]) 0x400000F9 [] := by
  decide
/-- The three causes of a zero data byte: an error, BEGIN, INIT. -/
theorem witness_CommandsWithoutResultAnswerZero :
    ((after fresh 0x00000000).map State.faults ≠ some []) ∧ decode 0x20000000 = .legal .begin ∧
    decode 0x10B1CB35 = .legal (.init 0xB1 0xCB 0x35) := by decide
theorem witness_IdleEngineWaits : (streaming []).hosts ≤ 1 ∧ (streaming []).inbox = [] := by decide
theorem witness_RefusedConfigurations :
    1 < ({ fresh [] with hosts := 2 }).hosts ∧ (fresh [.commandDuringReset 0x20000000]).hosts ≤ 1 ∧
    (fresh [.commandDuringReset 0x20000000]).inbox = .commandDuringReset 0x20000000 :: [] := by decide
theorem witness_RecordsOnlyGrow :
    ∃ t, step (streaming [.command 0x30000048]) = .next t ∧ t.responses = [0x03F9] := ⟨_, rfl, by decide⟩
/-- A step on a command that is not INIT. -/
theorem witness_OnlyInitWritesCipherState :
    ∃ t, CommandNext (streaming [.command 0x30000048]) 0x30000048 [] ∧
      step (streaming [.command 0x30000048]) = .next t ∧
      ∀ iv key ctr, decode 0x30000048 ≠ .legal (.init iv key ctr) :=
  ⟨_, by decide, rfl, fun _ _ _ h => by
    rw [show decode 0x30000048 = .legal (.encb 0x48) by decide] at h; cases h⟩
/-- A step on a command that is not BEGIN, ENCB or DECB. -/
theorem witness_OnlyStreamCommandsWriteWorkingState :
    ∃ t, CommandNext (streaming [.command 0x5035CB00]) 0x5035CB00 [] ∧
      step (streaming [.command 0x5035CB00]) = .next t ∧ decode 0x5035CB00 ≠ .legal .begin ∧
      ∀ b, decode 0x5035CB00 ≠ .legal (.encb b) ∧ decode 0x5035CB00 ≠ .legal (.decb b) :=
  ⟨_, by decide, rfl, by decide, fun _ => by
    rw [show decode 0x5035CB00 = .legal (.nkc 0x35 0xCB) by decide]; exact ⟨nofun, nofun⟩⟩
theorem witness_CipherStateIsFixedWhileStreamIsOpen :
    ∃ t, step (streaming [.command 0x20000000]) = .next t ∧ (streaming []).status.opened = true ∧
      t.status.opened = true := ⟨_, rfl, rfl, rfl⟩
theorem witness_WorkingStateIsUnreadWhileClosed :
    ∃ t, (keyed [.command 0x20000000]).status.opened = false ∧ step (keyed [.command 0x20000000]) = .next t ∧
      t.status.opened = true := ⟨_, rfl, rfl, rfl⟩
/-- A stateless command, INIT twice, BEGIN twice, ENCB and DECB each answer a next state. -/
theorem witness_SideEffectsAndIdempotency :
    (∃ t, exec .rdstat (fresh []) = .next t) ∧
    (∃ t t', exec (.init 0xB1 0xCB 0x35) (fresh []) = .next t ∧ exec (.init 0xB1 0xCB 0x35) t = .next t') ∧
    (∃ t t', exec .begin (keyed []) = .next t ∧ exec .begin t = .next t') ∧
    (∃ t, exec (.encb 0x48) (streaming []) = .next t) ∧ (∃ t, exec (.decb 0xF9) (streaming []) = .next t) :=
  ⟨⟨_, rfl⟩, ⟨_, _, rfl, rfl⟩, ⟨_, _, rfl, rfl⟩, ⟨_, rfl⟩, ⟨_, rfl⟩⟩
theorem witness_open_gated_stream : Gated (streaming []) ∧ (streaming []).status.opened = true := by decide
/-- ENCODE of one byte stands on the channel of a keyed state. -/
theorem witness_EncodeCommandsComputeEncode :
    ∃ s : State, s.hosts ≤ 1 ∧ s.status.keyed = true ∧ s.iv.value = some 0xB1 ∧ s.key.value = some 0xCB ∧
      s.ctr.value = some 0x35 ∧ s.inbox = asInputs (encodeExpansion [0x48]) ++ [.reset none] :=
  ⟨keyed [.command 0x20000000, .command 0x30000048, .reset none], by decide⟩
/-- DECODE of one byte stands on the channel of a keyed state. -/
theorem witness_DecodeCommandsComputeDecode :
    ∃ s : State, s.hosts ≤ 1 ∧ s.status.keyed = true ∧ s.iv.value = some 0xB1 ∧ s.key.value = some 0xCB ∧
      s.ctr.value = some 0x35 ∧ s.inbox = asInputs (decodeExpansion [0xF9]) ++ [.reset none] :=
  ⟨keyed [.command 0x20000000, .command 0x400000F9, .reset none], by decide⟩
/-- ENCODE of one byte and DECODE of its output stand on the channel of a keyed state. -/
theorem witness_EngineRoundTrip :
    ∃ s : State, s.hosts ≤ 1 ∧ s.status.keyed = true ∧ s.iv.value = some 0xB1 ∧ s.key.value = some 0xCB ∧
      s.ctr.value = some 0x35 ∧
      s.inbox = asInputs (encodeExpansion [0x48] ++ decodeExpansion (encodeBytes 0xB1 0xCB 0x35 [0x48])) ++ [] :=
  ⟨keyed [.command 0x20000000, .command 0x30000048, .command 0x20000000, .command 0x400000F9], by decide⟩
/-- Two different gated states with the same IV, KEY and CTR and the same ENCODE on the channel. -/
theorem witness_EncodeStreamsAreDeterministic :
    ∃ s s' : State, s.hosts ≤ 1 ∧ s'.hosts ≤ 1 ∧ Gated s ∧ Gated s' ∧ s.status.keyed = true ∧
      s'.status.keyed = true ∧ s'.iv = s.iv ∧ s'.key = s.key ∧ s'.ctr = s.ctr ∧
      s.inbox = asInputs (encodeExpansion [0x48]) ++ [] ∧ s'.inbox = asInputs (encodeExpansion [0x48]) ++ [] ∧
      s ≠ s' :=
  ⟨keyed [.command 0x20000000, .command 0x30000048], streaming [.command 0x20000000, .command 0x30000048],
    by decide⟩
/-- Init and Encode of one byte stand on the channel of the state after reset. -/
theorem witness_SourceCallsRaiseNoError :
    ∃ s : State, s.hosts ≤ 1 ∧ startsWithInit [.init 0xB1 0xCB 0x35, .encode [0x48]] = true ∧
      s.inbox = asInputs (sourceCommands [.init 0xB1 0xCB 0x35, .encode [0x48]]) ++ [] :=
  ⟨fresh [.command 0x10B1CB35, .command 0x20000000, .command 0x30000048], by decide⟩
theorem witness_DecimalOperandRanges :
    byteOperand (Nat.toDigits 10 255) = some 0xFF ∧ byteOperand (Nat.toDigits 10 256) = none ∧
    indexOperand (Nat.toDigits 10 15) = some 15 ∧ indexOperand (Nat.toDigits 10 16) = none := by decide

end Sys2Proof.Tests
end

section
/-! SUPPORT. A command word field by field: a mask and a pattern of the opcode map test the fields one by one, so the
words that decode to a command are those the field rules R65 to R67 call well formed. -/

namespace Sys2Proof

open Laws.EncodesInRow (formatC_and)

/-- Two words put together from parts of the same widths are equal part by part. -/
theorem bitVec_append_inj {m n : Nat} {x x' : BitVec m} {y y' : BitVec n} :
    x ++ y = x' ++ y' ↔ x = x' ∧ y = y' := by
  constructor
  · intro h
    have hx := congrArg (BitVec.extractLsb' n m) h
    have hy := congrArg (BitVec.extractLsb' 0 n) h
    rw [BitVec.extractLsb'_append_eq_left, BitVec.extractLsb'_append_eq_left] at hx
    rw [BitVec.extractLsb'_append_eq_right, BitVec.extractLsb'_append_eq_right] at hy
    exact ⟨hx, hy⟩
  · rintro ⟨rfl, rfl⟩
    rfl

/-- Two words of format `C` are equal field by field. -/
theorem formatC_inj {o i o' i' : BitVec 4} {a b c a' b' c' : Byte} :
    formatC o i a b c = formatC o' i' a' b' c' ↔ o = o' ∧ i = i' ∧ a = a' ∧ b = b' ∧ c = c' := by
  have h : o ++ i ++ a ++ b ++ c = o' ++ i' ++ a' ++ b' ++ c' ↔
      o = o' ∧ i = i' ∧ a = a' ∧ b = b' ∧ c = c' := by
    simp only [bitVec_append_inj, and_assoc]
  exact h

/-- A word is its five fields (R61). -/
theorem formatC_fields (w : CommandWord) :
    formatC (opField w) (idxField w) (aField w) (bField w) (cField w) = w := by
  have h : w.extractLsb' 28 4 ++ w.extractLsb' 24 4 ++ w.extractLsb' 16 8 ++ w.extractLsb' 8 8 ++
      w.extractLsb' 0 8 = w := by
    rw [BitVec.extractLsb'_append_extractLsb'_eq_extractLsb' (show 28 = 24 + 4 from rfl),
      BitVec.extractLsb'_append_extractLsb'_eq_extractLsb' (show 24 = 16 + 8 from rfl),
      BitVec.extractLsb'_append_extractLsb'_eq_extractLsb' (show 16 = 8 + 8 from rfl),
      BitVec.extractLsb'_append_extractLsb'_eq_extractLsb' (show 8 = 0 + 8 from rfl)]
    exact BitVec.extractLsb'_eq_self
  exact h

/-- The mask of one field: no bit of a field in use is tested, every bit of a should-be-zero field is. -/
def sbzMask (n : Nat) (used : Bool) : BitVec n := if used then 0 else BitVec.allOnes n

/-- A masked field is zero where the field is in use or holds zero. -/
theorem and_sbzMask {n : Nat} (x : BitVec n) (used : Bool) :
    x &&& sbzMask n used = 0 ↔ used = true ∨ x = 0 := by
  cases used <;> simp [sbzMask]

/-- The mask column of the opcode map from the operand columns (R65): the opcode and the should-be-zero fields. -/
def FieldUse.mask (u : FieldUse) : CommandWord :=
  formatC 0xF (sbzMask 4 u.idx) (sbzMask 8 u.a) (sbzMask 8 u.b) (sbzMask 8 u.c)

/-- Every field that `u` does not use is zero (R66). -/
def FieldUse.Allows (u : FieldUse) (w : CommandWord) : Prop :=
  (u.idx = true ∨ idxField w = 0) ∧ (u.a = true ∨ aField w = 0) ∧
  (u.b = true ∨ bField w = 0) ∧ (u.c = true ∨ cField w = 0)

/-- A mask and pattern test says what the field rules say. -/
theorem and_mask_eq_iff (u : FieldUse) (w : CommandWord) (op : BitVec 4) :
    w &&& u.mask = formatC op 0 0 0 0 ↔ opField w = op ∧ u.Allows w := by
  have hop : opField w &&& 0xF = opField w := BitVec.and_allOnes
  conv_lhs => rw [← formatC_fields w]
  rw [FieldUse.mask, formatC_and, formatC_inj, hop, and_sbzMask, and_sbzMask, and_sbzMask, and_sbzMask,
    FieldUse.Allows]

/-- The mask and pattern columns of each row are those of its operand columns. -/
theorem opcodeRows_columns : ∀ r ∈ opcodeRows,
    (fieldUse (opField r.pattern)).map FieldUse.mask = some r.mask ∧
    r.pattern = formatC (opField r.pattern) 0 0 0 0 := by decide

/-- Every opcode that is not reserved has a row. -/
theorem exists_row_of_fieldUse :
    ∀ op : BitVec 4, (fieldUse op).isSome = true → ∃ r ∈ opcodeRows, opField r.pattern = op := by decide

/-- A row selects the words of its opcode whose should-be-zero fields are zero. -/
theorem selects_iff {r : OpcodeRow} (hr : r ∈ opcodeRows) (w : CommandWord) :
    r.selects w = true ↔ opField w = opField r.pattern ∧ ∃ u, fieldUse (opField w) = some u ∧ u.Allows w := by
  obtain ⟨hmask, hpat⟩ := opcodeRows_columns r hr
  obtain ⟨u, hu, hm⟩ := Option.map_eq_some_iff.mp hmask
  rw [OpcodeRow.selects, beq_iff_eq, hpat, ← hm, and_mask_eq_iff, ← hpat]
  refine and_congr_right fun hop => ?_
  rw [hop, hu]
  simp

/-- The well-formed words by their fields. -/
theorem wellFormedWord_iff (w : CommandWord) :
    wellFormedWord w = true ↔ ∃ u, fieldUse (opField w) = some u ∧ u.Allows w := by
  unfold wellFormedWord
  cases fieldUse (opField w) with
  | none => simp
  | some u => simp [FieldUse.Allows, and_assoc]

/-- A word decodes to a command exactly where a row selects it (R68). -/
theorem decode_legal_iff (w : CommandWord) :
    (∃ i, decode w = .legal i) ↔ ∃ r ∈ opcodeRows, r.selects w = true := by
  rw [← List.find?_isSome, decode]
  cases opcodeRows.find? (fun r => r.selects w) with
  | none => cases isReservedOpcode (opField w) <;> simp
  | some r => simp

/-- R66, R67: the words that decode to a command are the well-formed ones. -/
theorem decode_legal_iff_wellFormedWord (w : CommandWord) :
    (∃ i, decode w = .legal i) ↔ wellFormedWord w = true := by
  rw [decode_legal_iff, wellFormedWord_iff]
  constructor
  · rintro ⟨r, hr, hsel⟩
    exact ((selects_iff hr w).mp hsel).2
  · rintro ⟨u, hu, hallows⟩
    obtain ⟨r, hr, hop⟩ := exists_row_of_fieldUse (opField w) (by simp [hu])
    exact ⟨r, hr, (selects_iff hr w).mpr ⟨hop.symm, u, hu, hallows⟩⟩

theorem wellFormedWord_of_legal {w : CommandWord} {i : Instr} (h : decode w = .legal i) :
    wellFormedWord w = true :=
  (decode_legal_iff_wellFormedWord w).mp ⟨i, h⟩

theorem wellFormedWord_of_illegal {w : CommandWord} {r : IllegalReason} (h : decode w = .illegal r) :
    wellFormedWord w = false := by
  rw [← Bool.not_eq_true, ← decode_legal_iff_wellFormedWord]
  rintro ⟨i, hi⟩
  rw [h] at hi
  cases hi

end Sys2Proof
end

section
/-! SUPPORT. Where a command is the fault UnwrittenRead (10_state.md R35), said once for all ten. -/

namespace Sys2Proof.Machine

theorem value_eq_none {r : Reg} : r.value = none ↔ r.written = false := by
  cases h : r.written <;> simp [Reg.value, h]

/-- The fault of reading the registers `rs` in their order: it names the first that holds no value. -/
def ReadFault (s : State) (rs : List RegName) (f : Fault) : Prop :=
  ∃ r, rs.find? (fun r => (s.reg r).value.isNone) = some r ∧ f = .unwrittenRead r

theorem readFault_nil (s : State) (f : Fault) : ¬ ReadFault s [] f := by
  simp [ReadFault]

/-- A read and what follows it: the fault is that of the register read, or of the registers read afterwards. -/
theorem withReg_fault_iff {s : State} {r : RegName} {rs : List RegName} {k : Byte → Result} {f : Fault}
    (hk : ∀ b, k b = .fault f ↔ ReadFault s rs f) : withReg s r k = .fault f ↔ ReadFault s (r :: rs) f := by
  cases h : (s.reg r).value with
  | none => simp [withReg_of_noValue h, ReadFault, h, eq_comm]
  | some b => simp [withReg_of_value h, hk, ReadFault, h]

/-- The registers a command reads in the state `s`, in the order of its pseudocode (R120, R121, R122). -/
def readRegs (s : State) : Instr → List RegName
  | .begin => if s.status.keyed then [.ctr, .key, .iv] else []
  | .encb _ => if s.status.opened then [.rctr, .chain, .key] else []
  | .decb _ => if s.status.opened then [.rctr, .chain, .key] else []
  | _ => []

theorem readRegs_of_stateless {i : Instr} (h : isStateless i = true) (s : State) : readRegs s i = [] := by
  cases i <;> simp [isStateless, readRegs] at h ⊢

/-- BEGIN reads with KEYED = 1 only, a byte command with OPEN = 1 only. -/
theorem of_mem_readRegs {s : State} {i : Instr} {r : RegName} (h : r ∈ readRegs s i) :
    (s.status.keyed = true ∧ r ∈ [.ctr, .key, .iv]) ∨ (s.status.opened = true ∧ r ∈ [.rctr, .chain, .key]) := by
  cases hi : isStateless i
  · cases i with
    | init iv key ctr => simp [readRegs] at h
    | begin => exact .inl (List.mem_ite_nil_right.mp h)
    | encb x => exact .inr (List.mem_ite_nil_right.mp h)
    | decb y => exact .inr (List.mem_ite_nil_right.mp h)
    | _ => cases hi
  · simp [readRegs_of_stateless hi] at h

/-- Where BEGIN faults (R35, R120). -/
theorem execBegin_fault_iff {s : State} {f : Fault} :
    execBegin s = .fault f ↔ ReadFault s (if s.status.keyed then [.ctr, .key, .iv] else []) f := by
  cases hk : s.status.keyed
  · simp [execBegin, hk, readFault_nil]
  · simp only [execBegin, hk, if_true]
    refine withReg_fault_iff fun ctr => withReg_fault_iff fun key => withReg_fault_iff fun iv => ?_
    simp [readFault_nil]

/-- Where a byte command faults (R35, R121, R122). -/
theorem streamByte_fault_iff {s : State} {w : CommandWord} {x : Byte} {g : Byte → Byte} {f : Fault} :
    streamByte w x g s = .fault f ↔
      ReadFault s (if s.status.opened then [.rctr, .chain, .key] else []) f := by
  cases ho : s.status.opened
  · simp [streamByte, ho, readFault_nil]
  · simp only [streamByte, ho, if_true]
    refine withReg_fault_iff fun r => withReg_fault_iff fun ch => withReg_fault_iff fun key => ?_
    simp [readFault_nil]

/-- A command faults exactly where a register it reads holds no value. -/
theorem exec_fault_iff {s : State} {i : Instr} {f : Fault} :
    exec i s = .fault f ↔ ReadFault s (readRegs s i) f := by
  cases hi : isStateless i
  · cases i with
    | init iv key ctr => simp [exec, execInit, readRegs, readFault_nil]
    | begin => simp only [exec, readRegs, execBegin_fault_iff]
    | encb x => simp only [exec, execEncb, readRegs, streamByte_fault_iff]
    | decb y => simp only [exec, execDecb, readRegs, streamByte_fault_iff]
    | _ => cases hi
  · obtain ⟨d, hd⟩ := exec_of_stateless hi s
    simp [hd, readRegs_of_stateless hi, readFault_nil]

/-- Some register is named by the fault exactly where one of those read holds no value. -/
theorem exec_unwrittenRead_iff {s : State} {i : Instr} :
    (∃ r, exec i s = .fault (.unwrittenRead r)) ↔ ∃ r ∈ readRegs s i, (s.reg r).value = none := by
  simp only [exec_fault_iff, ReadFault, Fault.unwrittenRead.injEq, exists_eq_right',
    ← Option.isSome_iff_exists, List.find?_isSome, Option.isNone_iff_eq_none]

/-- The register a fault names is one of those read, and it holds no value. -/
theorem exec_unwrittenRead {s : State} {i : Instr} {r : RegName} (h : exec i s = .fault (.unwrittenRead r)) :
    r ∈ readRegs s i ∧ (s.reg r).value = none := by
  obtain ⟨r', hfind, hr⟩ := exec_fault_iff.mp h
  cases hr
  exact ⟨List.mem_of_find?_eq_some hfind, by simpa using List.find?_some hfind⟩

end Sys2Proof.Machine
end

section
/-! SUPPORT. Steps by what the outside delivers, and what every command does to STATUS and to the registers. -/

namespace Sys2Proof.Machine

/-! ## Steps -/

/-- A step of an idle engine (log entry 4). -/
theorem step_idle {s : State} (hh : s.hosts ≤ 1) (hi : s.inbox = []) : step s = .next s := by
  simp [step, takeInput, hi, Nat.not_lt.mpr hh]

/-- The step on reset (R46, R170). -/
theorem step_reset {s : State} {p : Option CommandWord} {rest : List Input} (hh : s.hosts ≤ 1)
    (hi : s.inbox = .reset p :: rest) : step s = .next (applyReset (s.awaiting rest)) := by
  simp [step, takeInput, hi, Nat.not_lt.mpr hh]

/-- Only one host is taken (R52). -/
theorem hosts_le_of_step_next {s t : State} (h : step s = .next t) : s.hosts ≤ 1 := by
  refine Nat.not_lt.mp fun hh => ?_
  simp [step, takeInput, hh] at h

theorem eq_of_step_reset {s t : State} {p : Option CommandWord} {rest : List Input}
    (hi : s.inbox = .reset p :: rest) (h : step s = .next t) : t = applyReset (s.awaiting rest) := by
  rw [step_reset (hosts_le_of_step_next h) hi] at h
  exact (Host.Outcome.next.inj h).symm

/-- Everything a step on a command word that answers a next state can have done. -/
theorem step_command_next {s t : State} {w : CommandWord} {rest : List Input} (hc : CommandNext s w rest)
    (h : step s = .next t) :
    (∃ r, decode w = .illegal r ∧ t = raiseError .illegalCommand w (s.awaiting rest)) ∨
    (∃ i, decode w = .legal i ∧ Answers (s.awaiting rest) i t) := by
  obtain ⟨hh, hi⟩ := hc
  rw [step_command hh hi] at h
  cases hd : decode w with
  | illegal r =>
    rw [runWord_of_illegal hd] at h
    exact .inl ⟨r, rfl, (Host.Outcome.next.inj h).symm⟩
  | legal i =>
    rw [runWord_of_legal hd] at h
    exact .inr ⟨i, rfl, exec_next h⟩

/-- A step that faults runs a command that faults. -/
theorem step_fault {s : State} {f : Fault} (h : step s = .fault f) :
    ∃ rest i, exec i (s.awaiting rest) = .fault f := by
  simp only [step, takeInput] at h
  split at h
  · cases h
  · split at h
    · cases h
    · rename_i w rest _
      cases hd : decode w with
      | legal i => exact ⟨rest, i, by rwa [runWord_of_legal hd] at h⟩
      | illegal r => rw [runWord_of_illegal hd] at h; cases h
    · cases h
    · cases h

/-! ## STATUS -/

/-- STATUS after the command `i` from STATUS before it (R31, R32). -/
def statusAfter : Instr → Status → Status
  | .init _ _ _, st => st.afterInit
  | .begin, st => if st.keyed then st.afterBegin else st.afterError .noKey
  | .encb _, st => if st.opened then st else st.afterError .noStream
  | .decb _, st => if st.opened then st else st.afterError .noStream
  | .nkc _ _, st => st
  | .mix _ _ _, st => st
  | .getbit _ _, st => st
  | .setbit _ _, st => st
  | .clrbit _ _, st => st
  | .rdstat, st => st

theorem statusAfter_of_stateless {i : Instr} (h : isStateless i = true) (st : Status) :
    statusAfter i st = st := by
  cases i <;> simp [isStateless, statusAfter] at h ⊢

/-- Every command that answers a next state changes STATUS as R31 and R32 say. -/
theorem Answers.status_eq {s t : State} {i : Instr} (h : Answers s i t) : t.status = statusAfter i s.status := by
  cases h with
  | init iv key ctr => simp [statusAfter]
  | beginError hk => simp [statusAfter, hk]
  | begin iv key ctr hk => simp [statusAfter, hk]
  | encbError x ho => simp [statusAfter, ho]
  | encb x r ch key ho => simp [statusAfter, ho]
  | decbError y ho => simp [statusAfter, ho]
  | decb y r ch key ho => simp [statusAfter, ho]
  | stateless i d hi => simp [statusAfter_of_stateless hi]

/-- The bits of STATUS as a byte, from bit 0 on (R30, R33). -/
theorem Status.getLsbD_byte (st : Status) (i : Nat) :
    st.byte.getLsbD i = [st.keyed, st.opened, st.perr, st.ill].getD i false := by
  have h : st.byte.getLsbD i = BitVec.getLsbD (w := 4 + 1 + 1 + 1 + 1) st.byte i := rfl
  rw [h, Status.byte]
  simp only [BitVec.getLsbD_append]
  match i with
  | 0 => simp
  | 1 => simp
  | 2 => simp
  | 3 => simp
  | k + 4 => simp

@[simp] theorem afterError_perr (st : Status) (e : ErrorCode) :
    (st.afterError e).perr = (st.perr || e != .illegalCommand) := by
  cases e <;> simp [Status.afterError]

@[simp] theorem afterError_ill (st : Status) (e : ErrorCode) :
    (st.afterError e).ill = (st.ill || e == .illegalCommand) := by
  cases e <;> simp [Status.afterError]

/-- No legal command touches ILL. -/
theorem statusAfter_ill (i : Instr) (st : Status) : (statusAfter i st).ill = st.ill := by
  cases hi : isStateless i
  · cases i with
    | init iv key ctr => simp [statusAfter]
    | begin => cases hk : st.keyed <;> simp [statusAfter, hk]
    | encb x => cases ho : st.opened <;> simp [statusAfter, ho]
    | decb y => cases ho : st.opened <;> simp [statusAfter, ho]
    | _ => cases hi
  · rw [statusAfter_of_stateless hi]

/-! ## The gating of the registers (R35) -/

/-- The registers a byte command reads hold values in a gated state with an open stream. -/
theorem Gated.streamValues {s : State} (hg : Gated s) (ho : s.status.opened = true) :
    ∃ r ch key, s.rctr.value = some r ∧ s.chain.value = some ch ∧ s.key.value = some key := by
  obtain ⟨hcipher, hworking⟩ := hg
  obtain ⟨hk, hr, hch⟩ := hworking ho
  obtain ⟨-, hkey, -⟩ := hcipher hk
  obtain ⟨r, hr⟩ := exists_value_of_written hr
  obtain ⟨ch, hch⟩ := exists_value_of_written hch
  obtain ⟨key, hkey⟩ := exists_value_of_written hkey
  exact ⟨r, ch, key, hr, hch, hkey⟩

/-- In a gated state every register a command reads is written. -/
theorem Gated.readRegs_written {s : State} (hg : Gated s) {i : Instr} {r : RegName} (hr : r ∈ readRegs s i) :
    (s.reg r).written = true := by
  obtain ⟨hcipher, hworking⟩ := hg
  rcases of_mem_readRegs hr with ⟨hk, hr⟩ | ⟨ho, hr⟩
  · obtain ⟨hiv, hkey, hctr⟩ := hcipher hk
    simp only [List.mem_cons, List.not_mem_nil, or_false] at hr
    rcases hr with rfl | rfl | rfl
    exacts [hctr, hkey, hiv]
  · obtain ⟨hk, hrctr, hchain⟩ := hworking ho
    obtain ⟨-, hkey, -⟩ := hcipher hk
    simp only [List.mem_cons, List.not_mem_nil, or_false] at hr
    rcases hr with rfl | rfl | rfl
    exacts [hrctr, hchain, hkey]

theorem gated_awaiting {s : State} (rest : List Input) : Gated (s.awaiting rest) ↔ Gated s := Iff.rfl

theorem gated_respond {s : State} (d : Byte) : Gated (respond d s) ↔ Gated s := Iff.rfl

theorem gated_raiseError {s : State} (e : ErrorCode) (w : CommandWord) :
    Gated (raiseError e w s) ↔ Gated s := by
  simp [Gated]

theorem gated_applyReset (s : State) : Gated (applyReset s) := by
  simp [Gated]

theorem gated_byteAnswered {s : State} (hg : Gated s) (output chain counter : Byte) :
    Gated (byteAnswered s output chain counter) :=
  ⟨hg.1, fun ho => ⟨(hg.2 ho).1, rfl, rfl⟩⟩

/-- Every command that answers a next state keeps the gating. -/
theorem Answers.gated {s t : State} {i : Instr} (h : Answers s i t) (hg : Gated s) : Gated t := by
  cases h with
  | init iv key ctr => simp [Gated]
  | beginError hk => exact (gated_raiseError _ _).mpr hg
  | begin iv key ctr hk => exact ⟨hg.1, fun _ => ⟨hk, rfl, rfl⟩⟩
  | encbError x ho => exact (gated_raiseError _ _).mpr hg
  | encb x r ch key ho => exact gated_byteAnswered hg _ _ _
  | decbError y ho => exact (gated_raiseError _ _).mpr hg
  | decb y r ch key ho => exact gated_byteAnswered hg _ _ _
  | stateless i d hi => exact (gated_respond d).mpr hg

/-! ## Who writes which register -/

/-- A command that is no INIT leaves IV, KEY and CTR. -/
theorem Answers.cipherState_eq {s t : State} {i : Instr} (h : Answers s i t)
    (hi : ∀ iv key ctr, i ≠ .init iv key ctr) : t.iv = s.iv ∧ t.key = s.key ∧ t.ctr = s.ctr := by
  cases h with
  | init iv key ctr => exact absurd rfl (hi iv key ctr)
  | _ => simp

/-- A command that is no BEGIN, ENCB or DECB leaves RCTR and CHAIN. -/
theorem Answers.workingState_eq {s t : State} {i : Instr} (h : Answers s i t) (hb : i ≠ .begin)
    (hi : ∀ b, i ≠ .encb b ∧ i ≠ .decb b) : t.rctr = s.rctr ∧ t.chain = s.chain := by
  cases h with
  | beginError => exact absurd rfl hb
  | begin => exact absurd rfl hb
  | encbError x => exact absurd rfl (hi x).1
  | encb x => exact absurd rfl (hi x).1
  | decbError y => exact absurd rfl (hi y).2
  | decb y => exact absurd rfl (hi y).2
  | _ => simp

/-! ## RCTR and CHAIN while no stream is open (R28, R29) -/

/-- The state with other contents of RCTR and CHAIN. -/
def State.withWorking (s : State) (r c : Reg) : State := { s with rctr := r, chain := c }

/-- A stateless command's answer depends on STATUS alone. -/
theorem exec_of_stateless_status {i : Instr} (h : isStateless i = true) (st : Status) :
    ∃ d, ∀ s : State, s.status = st → exec i s = .next (respond d s) := by
  cases i with
  | nkc ctr key => exact ⟨_, fun _ _ => rfl⟩
  | mix x ctr chain => exact ⟨_, fun _ _ => rfl⟩
  | getbit b j => exact ⟨_, fun _ _ => rfl⟩
  | setbit b j => exact ⟨_, fun _ _ => rfl⟩
  | clrbit b j => exact ⟨_, fun _ _ => rfl⟩
  | rdstat => exact ⟨st.byte, fun s hs => hs ▸ rfl⟩
  | _ => cases h

/-- The outcome is `t` but for RCTR and CHAIN, and `t` itself where a stream is open in `t`. -/
def SameButClosedWorking (t : State) (o : Result) : Prop :=
  ∃ r c, o = .next (t.withWorking r c) ∧ (t.status.opened = true → r = t.rctr ∧ c = t.chain)

theorem sameButClosedWorking_of_closed {t : State} {o : Result} (r c : Reg) (ht : t.status.opened = false)
    (ho : o = .next (t.withWorking r c)) : SameButClosedWorking t o :=
  ⟨r, c, ho, fun h => absurd (ht.symm.trans h) Bool.false_ne_true⟩

/-- With no stream open no command's outcome depends on RCTR or CHAIN, but for what it leaves in them. -/
theorem exec_withWorking {s t : State} {i : Instr} (r c : Reg) (ho : s.status.opened = false)
    (h : exec i s = .next t) : SameButClosedWorking t (exec i (s.withWorking r c)) := by
  cases hi : isStateless i
  · cases exec_next h with
    | init iv key ctr => exact sameButClosedWorking_of_closed r c rfl rfl
    | beginError hk => exact sameButClosedWorking_of_closed r c (by simpa using ho) (execBegin_of_noKey hk)
    | begin iv key ctr hk hiv hkey hctr =>
      exact ⟨_, _, execBegin_of_values (s := s.withWorking r c) hk hiv hkey hctr, fun _ => ⟨rfl, rfl⟩⟩
    | encbError x =>
      exact sameButClosedWorking_of_closed r c (by simpa using ho) (execEncb_of_noStream x ho)
    | decbError y =>
      exact sameButClosedWorking_of_closed r c (by simpa using ho) (execDecb_of_noStream y ho)
    | encb x _ _ _ hopen => exact absurd (ho.symm.trans hopen) Bool.false_ne_true
    | decb y _ _ _ hopen => exact absurd (ho.symm.trans hopen) Bool.false_ne_true
    | stateless i d hi' => exact absurd (hi.symm.trans hi') Bool.false_ne_true
  · obtain ⟨d, hd⟩ := exec_of_stateless_status hi s.status
    have ht : respond d s = t := Host.Outcome.next.inj ((hd s rfl).symm.trans h)
    subst ht
    exact sameButClosedWorking_of_closed r c ho (hd (s.withWorking r c) rfl)

/-- With no stream open no step's outcome depends on RCTR or CHAIN, but for what it leaves in them (R28, R29). -/
theorem step_withWorking {s t : State} (r c : Reg) (ho : s.status.opened = false) (h : step s = .next t) :
    SameButClosedWorking t (step (s.withWorking r c)) := by
  have hs := hosts_le_of_step_next h
  have hh : (s.withWorking r c).hosts ≤ 1 := hs
  rcases step_next h with ⟨hi, rfl⟩ | ⟨p, rest, hi, rfl⟩ | ⟨w, rest, e, hi, hd, rfl⟩ | ⟨w, rest, i, hi, hd, h⟩
  · exact sameButClosedWorking_of_closed r c ho (step_idle hh hi)
  · exact sameButClosedWorking_of_closed .noValue .noValue rfl (step_reset hh hi)
  · refine sameButClosedWorking_of_closed r c (by simpa using ho) ?_
    rw [step_command hh hi, runWord_of_illegal hd]
    rfl
  · rw [step_command hh hi, runWord_of_legal hd]
    exact exec_withWorking (s := s.awaiting rest) r c ho h

end Sys2Proof.Machine
end

section
/-! The statements about STATUS, reset, the gating of the registers and who writes which register (10_state.md). -/

namespace Sys2Proof.Machine

/-! ## The gating of the registers -/

/-- Settles O16: each way a step can answer a next state keeps the gating. -/
theorem stepKeepsGating : Obligations.StepKeepsGating := by
  intro s t hg h
  rcases step_next h with ⟨-, rfl⟩ | ⟨p, rest, -, rfl⟩ | ⟨w, rest, r, -, -, rfl⟩ | ⟨w, rest, i, -, -, hexec⟩
  · exact hg
  · exact gated_applyReset _
  · exact (gated_raiseError _ _).mpr ((gated_awaiting rest).mpr hg)
  · exact (exec_next hexec).gated ((gated_awaiting rest).mpr hg)

/-- Settles O17: a fault names a register that the command reads and that holds no value, and a gated state has none. -/
theorem noStepReadsUnwrittenRegister : Obligations.NoStepReadsUnwrittenRegister := by
  intro s hg r h
  obtain ⟨rest, i, hexec⟩ := step_fault h
  obtain ⟨hr, hnone⟩ := exec_unwrittenRead hexec
  have hwritten := ((gated_awaiting rest).mpr hg).readRegs_written hr
  rw [value_eq_none, hwritten] at hnone
  cases hnone

/-- Settles O18: the fault is raised exactly where one of the registers a command reads holds no value. -/
theorem unwrittenReadFaults : Obligations.UnwrittenReadFaults := by
  refine ⟨fun s hk => ?_, fun s b ho => ⟨?_, ?_⟩, fun s i r h => (exec_unwrittenRead h).2⟩
  · have hregs : readRegs s .begin = [.ctr, .key, .iv] := if_pos hk
    rw [exec_unwrittenRead_iff, hregs]
    simp [or_comm, or_assoc]
  · have hregs : readRegs s (.encb b) = [.rctr, .chain, .key] := if_pos ho
    simp [exec_unwrittenRead_iff, hregs]
  · have hregs : readRegs s (.decb b) = [.rctr, .chain, .key] := if_pos ho
    simp [exec_unwrittenRead_iff, hregs]

/-! ## STATUS -/

/-- Settles O32: an illegal word raises IllegalCommand, and a command changes STATUS by `statusAfter`. -/
theorem stickyErrorBits : Obligations.StickyErrorBits := by
  constructor
  · intro s t w rest hc h
    rcases step_command_next hc h with ⟨r, hd, rfl⟩ | ⟨i, hd, hans⟩
    · simp [hd, wellFormedWord_of_illegal hd]
    · rw [hans.status_eq, statusAfter_ill, hd, wellFormedWord_of_legal hd]
      refine ⟨?_, by simp⟩
      cases i with
      | begin => cases hk : s.status.keyed <;> simp [statusAfter, hk]
      | encb x => cases ho : s.status.opened <;> simp [statusAfter, ho]
      | decb y => cases ho : s.status.opened <;> simp [statusAfter, ho]
      | _ => simp [statusAfter]
  · intro s t p rest hi h
    simp [eq_of_step_reset hi h]

/-- Settles O33: an error leaves KEYED and OPEN, and a command changes them by `statusAfter`. -/
theorem keyedAndOpenLifetime : Obligations.KeyedAndOpenLifetime := by
  constructor
  · intro s t w rest hc h
    rcases step_command_next hc h with ⟨r, hd, rfl⟩ | ⟨i, hd, hans⟩
    · simp [hd]
    · rw [hans.status_eq, hd]
      cases i with
      | begin => cases hk : s.status.keyed <;> simp [statusAfter, hk]
      | encb x => cases ho : s.status.opened <;> simp [statusAfter, ho]
      | decb y => cases ho : s.status.opened <;> simp [statusAfter, ho]
      | _ => simp [statusAfter]
  · intro s t p rest hi h
    simp [eq_of_step_reset hi h]

/-! ## Who writes which register -/

/-- Settles O42, by the frame of each command on IV, KEY and CTR. -/
theorem onlyInitWritesCipherState : Obligations.OnlyInitWritesCipherState := by
  intro s t w rest hc h hno
  rcases step_command_next hc h with ⟨r, -, rfl⟩ | ⟨i, hd, hans⟩
  · simp
  · exact hans.cipherState_eq fun iv key ctr hi => hno iv key ctr (hd.trans (congrArg Decoded.legal hi))

/-- Settles O43: what writes IV, KEY or CTR, INIT or reset, closes the stream. -/
theorem cipherStateIsFixedWhileStreamIsOpen : Obligations.CipherStateIsFixedWhileStreamIsOpen := by
  intro s t h _ ht
  rcases step_next h with ⟨-, rfl⟩ | ⟨p, rest, -, rfl⟩ | ⟨w, rest, r, -, -, rfl⟩ | ⟨w, rest, i, -, -, hexec⟩
  · exact ⟨rfl, rfl, rfl⟩
  · cases ht
  · simp
  · refine (exec_next hexec).cipherState_eq ?_
    rintro iv key ctr rfl
    rw [(exec_next hexec).status_eq] at ht
    cases ht

/-- Settles O44, by the frame of each command on RCTR and CHAIN. -/
theorem onlyStreamCommandsWriteWorkingState : Obligations.OnlyStreamCommandsWriteWorkingState := by
  intro s t w rest hc h hbegin hbyte
  rcases step_command_next hc h with ⟨r, -, rfl⟩ | ⟨i, hd, hans⟩
  · simp
  · rw [hd] at hbegin hbyte
    exact hans.workingState_eq (by simpa using hbegin) (by simpa using hbyte)

/-- Settles O45: only an open stream's byte command would read RCTR or CHAIN, and a BEGIN overwrites both. -/
theorem workingStateIsUnreadWhileClosed : Obligations.WorkingStateIsUnreadWhileClosed :=
  fun _ _ r c ho h => step_withWorking r c ho h

/-- Settles O47: in a gated open stream a byte command reads values, so it completes. -/
theorem chainHoldsCiphertextByte : Obligations.ChainHoldsCiphertextByte := by
  intro s b hg ho
  obtain ⟨r, ch, key, hr, hch, hkey⟩ := hg.streamValues ho
  exact ⟨⟨_, mixByte b r ch, execEncb_of_values b ho hr hch hkey, by simp, by simp⟩,
    ⟨_, execDecb_of_values b ho hr hch hkey, by simp⟩⟩

/-! ## STATUS as a byte, and reset -/

/-- Settles O13, bit by bit of the byte. -/
theorem statusByteLayout : Obligations.StatusByteLayout := by
  intro st
  simp only [Status.getLsbD_byte]
  exact ⟨rfl, rfl, rfl, rfl, fun i h _ => List.getD_eq_default _ _ h⟩

/-- Settles O14, by evaluation of the state after reset. -/
theorem resetRegisters : Obligations.ResetRegisters := by
  exact ⟨rfl, rfl, rfl, rfl, rfl, rfl⟩

/-- Settles O15: KEYED and OPEN are 0. -/
theorem resetIsGated : Obligations.ResetIsGated :=
  gated_applyReset State.reset

end Sys2Proof.Machine
end

section
/-! SUPPORT. The bits of counter evolution and of the mixer, and their closed forms (42_counter_evolution.md,
43_byte_mixer.md). -/

namespace Sys2Proof.Machine

/-! ## The bits of the bitwise operations -/

@[simp] theorem getBit_xor (x y : Byte) (i : Nat) : getBit (x ^^^ y) i = (getBit x i ^^ getBit y i) :=
  BitVec.getLsbD_xor

@[simp] theorem getBit_and (x y : Byte) (i : Nat) : getBit (x &&& y) i = (getBit x i && getBit y i) :=
  BitVec.getLsbD_and

@[simp] theorem getBit_or (x y : Byte) (i : Nat) : getBit (x ||| y) i = (getBit x i || getBit y i) :=
  BitVec.getLsbD_or

@[simp] theorem getBit_not (x : Byte) (i : Nat) : getBit (~~~x) i = (decide (i < 8) && !getBit x i) :=
  BitVec.getLsbD_not

/-! ## Counter evolution (R91) -/

/-- Bit 0 of a byte is its parity. -/
theorem getBit_zero (b : Byte) : getBit b 0 = decide (b.toNat % 2 = 1) := by
  rw [getBit, BitVec.getLsbD, Nat.testBit_zero]

/-- The visited indices are those of the counter's parity. -/
theorem mem_visitedBits (ctr : Byte) {i : Nat} (hi : i < 8) :
    i ∈ visitedBits ctr ↔ i % 2 = ctr.toNat % 2 := by
  have hodd : ∀ i < 8, i ∈ [1, 3, 5, 7] ↔ i % 2 = 1 := by decide
  have heven : ∀ i < 8, i ∈ [0, 2, 4, 6] ↔ i % 2 = 0 := by decide
  rcases Nat.mod_two_eq_zero_or_one ctr.toNat with h | h
  · simpa [visitedBits, getBit_zero, h] using heven i hi
  · simpa [visitedBits, getBit_zero, h] using hodd i hi

theorem lt_of_mem_visitedBits {ctr : Byte} {i : Nat} (h : i ∈ visitedBits ctr) : i < 8 := by
  have hlt : ∀ odd : Bool, ∀ i ∈ (if odd then [1, 3, 5, 7] else [0, 2, 4, 6]), i < 8 := by decide
  exact hlt (getBit ctr 0) i h

/-- Counter evolution bit by bit (R91). -/
theorem getBit_nextKeystreamCounter (ctr key : Byte) {i : Nat} (hi : i < 8) :
    getBit (nextKeystreamCounter ctr key) i =
      if i % 2 = ctr.toNat % 2 then getBit ctr i ^^ getBit key i else getBit ctr i := by
  rw [nextKeystreamCounter, getBit_assign (fun i => getBit ctr i ^^ getBit key i) _
    (fun _ h => lt_of_mem_visitedBits h) _ _ hi]
  simp only [mem_visitedBits ctr hi]

/-- Bit `i` of the mask of the closed form: 0x55 has the even bits, 0xAA the odd ones. -/
theorem getBit_parityMask (n : Nat) {i : Nat} (hi : i < 8) :
    getBit (if n % 2 = 0 then 0x55 else 0xAA) i = decide (i % 2 = n % 2) := by
  have heven : ∀ i < 8, getBit 0x55 i = decide (i % 2 = 0) := by decide
  have hodd : ∀ i < 8, getBit 0xAA i = decide (i % 2 = 1) := by decide
  rcases Nat.mod_two_eq_zero_or_one n with h | h
  · simpa [h] using heven i hi
  · simpa [h] using hodd i hi

/-- The loop of R90 computes the closed form of R91. -/
theorem nextKeystreamCounter_eq_closedCounter (ctr key : Byte) :
    nextKeystreamCounter ctr key = closedCounter ctr key := by
  refine byte_ext fun i hi => ?_
  rw [getBit_nextKeystreamCounter ctr key hi, closedCounter, getBit_xor, getBit_and, getBit_parityMask _ hi]
  by_cases h : i % 2 = ctr.toNat % 2 <;> simp [h]

/-! ## The mixer (R101) -/

/-- The mixer bit by bit (R101). -/
theorem getBit_mixByte (x ctr chain : Byte) {i : Nat} (hi : i < 8) :
    getBit (mixByte x ctr chain) i = (getBit x i ^^ chainBit ctr chain i) := by
  rw [mixByte, getBit_assign (fun i => getBit x i ^^ chainBit ctr chain i) _
    (fun _ h => mem_bitPositions.mp h) _ _ hi, if_pos (mem_bitPositions.mpr hi)]

/-- `rev8` is the reversal of the bits (R9). -/
theorem rev8_eq_reverse (b : Byte) : rev8 b = b.reverse := by
  refine byte_ext fun i hi => ?_
  rw [getBit_rev8 b hi, getBit, getBit, BitVec.getLsbD_reverse, BitVec.getMsbD_eq_getLsbD, decide_eq_true hi,
    Bool.true_and]

/-- The chain bit selects between the chain byte and its mirror image. -/
theorem chainBit_eq (ctr chain : Byte) {i : Nat} (hi : i < 8) :
    chainBit ctr chain i = getBit ((chain &&& ctr) ||| (rev8 chain &&& ~~~ctr)) i := by
  cases h : getBit ctr i <;> simp [chainBit, h, hi, getBit_rev8 chain hi]

/-- The loop of R100 computes the closed form of R101. -/
theorem mixByte_eq_closedMix (x ctr chain : Byte) : mixByte x ctr chain = closedMix x ctr chain := by
  refine byte_ext fun i hi => ?_
  rw [getBit_mixByte x ctr chain hi, chainBit_eq ctr chain hi, closedMix, ← rev8_eq_reverse]
  exact (getBit_xor ..).symm

end Sys2Proof.Machine
end

section
/-! SUPPORT. Steps that answer nothing, the commands that complete, the one response of each, and what a command run
twice leaves (20_memory.md). -/

namespace Sys2Proof.Machine

/-! ## What the sequencer refuses (R52, U6) -/

theorem step_severalHosts {s : State} (hh : 1 < s.hosts) : step s = .refused .severalHosts := by
  simp [step, takeInput, hh]

theorem step_commandDuringReset {s : State} {w : CommandWord} {rest : List Input} (hh : s.hosts ≤ 1)
    (hi : s.inbox = .commandDuringReset w :: rest) : step s = .refused .commandDuringReset := by
  simp [step, takeInput, hi, Nat.not_lt.mpr hh]

/-! ## Every command is answered once (R45, R63) -/

/-- The registers BEGIN reads hold values in a gated state with a key. -/
theorem Gated.cipherValues {s : State} (hg : Gated s) (hk : s.status.keyed = true) :
    ∃ iv key ctr, s.iv.value = some iv ∧ s.key.value = some key ∧ s.ctr.value = some ctr := by
  obtain ⟨hcipher, -⟩ := hg
  obtain ⟨hiv, hkey, hctr⟩ := hcipher hk
  obtain ⟨iv, hiv⟩ := exists_value_of_written hiv
  obtain ⟨key, hkey⟩ := exists_value_of_written hkey
  obtain ⟨ctr, hctr⟩ := exists_value_of_written hctr
  exact ⟨iv, key, ctr, hiv, hkey, hctr⟩

/-- Every command completes in a gated state. -/
theorem Gated.exec_completes {s : State} (hg : Gated s) (i : Instr) : ∃ t, exec i s = .next t := by
  cases hi : isStateless i
  · cases i with
    | init iv key ctr => exact ⟨_, rfl⟩
    | begin =>
      cases hk : s.status.keyed
      · exact ⟨_, execBegin_of_noKey hk⟩
      · obtain ⟨iv, key, ctr, hiv, hkey, hctr⟩ := hg.cipherValues hk
        exact ⟨_, execBegin_of_values hk hiv hkey hctr⟩
    | encb x =>
      cases ho : s.status.opened
      · exact ⟨_, execEncb_of_noStream x ho⟩
      · obtain ⟨r, ch, key, hr, hch, hkey⟩ := hg.streamValues ho
        exact ⟨_, execEncb_of_values x ho hr hch hkey⟩
    | decb y =>
      cases ho : s.status.opened
      · exact ⟨_, execDecb_of_noStream y ho⟩
      · obtain ⟨r, ch, key, hr, hch, hkey⟩ := hg.streamValues ho
        exact ⟨_, execDecb_of_values y ho hr hch hkey⟩
    | _ => cases hi
  · obtain ⟨d, hd⟩ := exec_of_stateless hi s
    exact ⟨_, hd⟩

/-- Every command word completes in a gated state, an illegal one with IllegalCommand. -/
theorem Gated.step_command_completes {s : State} {w : CommandWord} {rest : List Input} (hg : Gated s)
    (hc : CommandNext s w rest) : ∃ t, step s = .next t := by
  obtain ⟨hh, hi⟩ := hc
  rw [step_command hh hi]
  cases hd : decode w with
  | legal i => rw [runWord_of_legal hd]; exact ((gated_awaiting rest).mpr hg).exec_completes i
  | illegal r => exact ⟨_, runWord_of_illegal hd _⟩

/-- From `s` to `t` one command was answered, with STATUS as it stands in `t`, and counted; no input was taken. -/
def AnsweredOnce (s t : State) : Prop :=
  ∃ d : Byte, t.responses = s.responses ++ [t.status.byte ++ d] ∧ t.inbox = s.inbox ∧ t.index = s.index + 1

theorem answeredOnce_raiseError (e : ErrorCode) (w : CommandWord) (s : State) :
    AnsweredOnce s (raiseError e w s) :=
  ⟨0x00, rfl, rfl, rfl⟩

/-- Every command ends in one `respond`, whatever it wrote before. -/
theorem Answers.answeredOnce {s t : State} {i : Instr} (h : Answers s i t) : AnsweredOnce s t := by
  cases h with
  | beginError => exact answeredOnce_raiseError _ _ s
  | encbError => exact answeredOnce_raiseError _ _ s
  | decbError => exact answeredOnce_raiseError _ _ s
  | _ => exact ⟨_, rfl, rfl, rfl⟩

/-- A step on a command word answers that word once. -/
theorem answeredOnce_of_step {s t : State} {w : CommandWord} {rest : List Input} (hc : CommandNext s w rest)
    (h : step s = .next t) : AnsweredOnce (s.awaiting rest) t := by
  rcases step_command_next hc h with ⟨r, -, rfl⟩ | ⟨i, -, hans⟩
  · exact answeredOnce_raiseError _ _ _
  · exact hans.answeredOnce

/-! ## Side effects and repetition (R47) -/

/-- A stateless command leaves all but the responses and the count. -/
theorem eq_of_exec_stateless {s t : State} {i : Instr} (hi : isStateless i = true) (h : exec i s = .next t) :
    t = { s with responses := t.responses, index := t.index } := by
  obtain ⟨d, hd⟩ := exec_of_stateless hi s
  obtain rfl := Host.Outcome.next.inj (hd.symm.trans h)
  rfl

/-- INIT after the same INIT leaves all but the responses and the count. -/
theorem eq_of_exec_init_twice {s t t' : State} {iv key ctr : Byte} (h : exec (.init iv key ctr) s = .next t)
    (h' : exec (.init iv key ctr) t = .next t') :
    t' = { t with responses := t'.responses, index := t'.index } := by
  obtain rfl := Host.Outcome.next.inj h
  obtain rfl := Host.Outcome.next.inj h'
  rfl

/-- BEGIN after BEGIN leaves all but the responses, the count and, without a key, the fault record: it reads IV, KEY
and CTR, which the first one left. -/
theorem eq_of_exec_begin_twice {s t t' : State} (h : exec .begin s = .next t) (h' : exec .begin t = .next t') :
    t' = { t with responses := t'.responses, faults := t'.faults, index := t'.index } ∧
      (s.status.keyed = true → t'.faults = t.faults) := by
  rcases execBegin_next h with ⟨hk, ht⟩ | ⟨hk, iv, key, ctr, hiv, hkey, hctr, ht⟩
  · have hb : exec .begin t = _ := execBegin_of_noKey (by simp [ht, hk])
    obtain rfl := Host.Outcome.next.inj (hb.symm.trans h')
    subst ht
    exact ⟨rfl, fun hk' => absurd (hk.symm.trans hk') Bool.false_ne_true⟩
  · have hb : exec .begin t = _ := execBegin_of_values (iv := iv) (key := key) (ctr := ctr)
      (by simp [ht, hk]) (by simp [ht, hiv]) (by simp [ht, hkey]) (by simp [ht, hctr])
    obtain rfl := Host.Outcome.next.inj (hb.symm.trans h')
    subst ht
    exact ⟨rfl, fun _ => rfl⟩

end Sys2Proof.Machine
end

section
/-! The statements about the channels, reset and the side effects of the commands (20_memory.md). -/

namespace Sys2Proof.Machine

/-- Settles O36: in a gated state the step completes, and a completed command word is answered once. -/
theorem everyCommandIsAnsweredOnce : Obligations.EveryCommandIsAnsweredOnce := by
  intro s w rest hg hc
  obtain ⟨t, ht⟩ := hg.step_command_completes hc
  obtain ⟨d, hresponses, hinbox, hindex⟩ := answeredOnce_of_step hc ht
  exact ⟨t, d, ht, hresponses, hinbox, hindex⟩

/-- Settles O46, clause by clause: the stateless commands, INIT twice, BEGIN twice, the byte commands. -/
theorem sideEffectsAndIdempotency : Obligations.SideEffectsAndIdempotency := by
  refine ⟨fun s t i hi h => ?_, fun s t t' iv key ctr => eq_of_exec_init_twice,
    fun s t t' => eq_of_exec_begin_twice, fun s t b r ch key ho hr hch hkey => ⟨fun h => ?_, fun h => ?_⟩⟩
  · refine eq_of_exec_stateless ?_ h
    cases i with
    | init => exact hi.elim
    | begin => exact hi.elim
    | encb => exact hi.elim
    | decb => exact hi.elim
    | _ => rfl
  · obtain rfl := Host.Outcome.next.inj ((execEncb_of_values b ho hr hch hkey).symm.trans h)
    simp [nextKeystreamCounter_eq_closedCounter, mixByte_eq_closedMix, increment]
  · obtain rfl := Host.Outcome.next.inj ((execDecb_of_values b ho hr hch hkey).symm.trans h)
    simp [nextKeystreamCounter_eq_closedCounter, increment]

/-- Settles O35: a step on a command word runs the word, and a legal word runs as its command. -/
theorem stepRunsDecodedCommand : Obligations.StepRunsDecodedCommand := by
  rintro s w rest i ⟨hh, hi⟩ hd
  exact (step_command hh hi).trans (runWord_of_legal hd _)

/-- Settles O38: the step on reset is `applyReset`, whose fields are those stated. -/
theorem resetDiscardsEverything : Obligations.ResetDiscardsEverything :=
  fun _ _ _ hh hi => step_reset hh hi

/-- Settles O39. -/
theorem idleEngineWaits : Obligations.IdleEngineWaits :=
  fun _ hh hi => step_idle hh hi

/-- Settles O40: the two refusals of the sequencer. -/
theorem refusedConfigurations : Obligations.RefusedConfigurations :=
  ⟨fun _ hh => step_severalHosts hh, fun _ _ _ hh hi => step_commandDuringReset hh hi⟩

end Sys2Proof.Machine
end

section
/-! SUPPORT. The decoder and the encoder undo each other: the rows of the opcode map have different opcodes, so a word
is selected by one row at most, and a row reads exactly the fields that its commands' words fill (30_encoding.md R61,
R65, R68). -/

namespace Sys2Proof

open Laws.EncodesInRow (rowIndex)

/-! ## The fields of a word of format `C` (R61) -/

theorem formatC_field_eqs (o i : BitVec 4) (a b c : Byte) :
    opField (formatC o i a b c) = o ∧ idxField (formatC o i a b c) = i ∧ aField (formatC o i a b c) = a ∧
      bField (formatC o i a b c) = b ∧ cField (formatC o i a b c) = c :=
  formatC_inj.mp (formatC_fields _)

/-- A row reads the operands out of a word of format `C`. -/
theorem read_formatC (r : OpcodeRow) (o i : BitVec 4) (a b c : Byte) :
    r.read (formatC o i a b c) = r.operands i a b c := by
  obtain ⟨-, hi, ha, hb, hc⟩ := formatC_field_eqs o i a b c
  rw [OpcodeRow.read, hi, ha, hb, hc]

/-! ## At most one row selects a word (R65) -/

theorem opcodeRows_opcodes_nodup : (opcodeRows.map fun r => opField r.pattern).Nodup := by decide

theorem row_eq_of_selects {w : CommandWord} {r₁ r₂ : OpcodeRow} (h₁ : r₁ ∈ opcodeRows) (h₂ : r₂ ∈ opcodeRows)
    (hs₁ : r₁.selects w = true) (hs₂ : r₂.selects w = true) : r₁ = r₂ := by
  have hop₁ := ((selects_iff h₁ w).mp hs₁).1
  have hop₂ := ((selects_iff h₂ w).mp hs₂).1
  exact List.inj_on_of_nodup_map opcodeRows_opcodes_nodup h₁ h₂ (hop₁.symm.trans hop₂)

/-- The command of a word is read by the row that selects it (R68). -/
theorem decode_eq_legal_iff {w : CommandWord} {i : Instr} :
    decode w = .legal i ↔ ∃ r ∈ opcodeRows, r.selects w = true ∧ r.read w = i := by
  rw [decode]
  cases hf : opcodeRows.find? (fun r => r.selects w) with
  | none =>
    rw [List.find?_eq_none] at hf
    have hnone : ¬ ∃ r ∈ opcodeRows, r.selects w = true ∧ r.read w = i :=
      fun ⟨r, hr, hs, _⟩ => hf r hr hs
    cases isReservedOpcode (opField w) <;> simp [hnone]
  | some r =>
    have hr := List.mem_of_find?_eq_some hf
    have hs : r.selects w = true := by simpa using List.find?_some hf
    simp only [Decoded.legal.injEq]
    constructor
    · exact fun h => ⟨r, hr, hs, h⟩
    · rintro ⟨r', hr', hs', h⟩
      rwa [row_eq_of_selects hr hr' hs hs']

/-! ## The decoder inverts the encoder (R68) -/

/-- The word of every command is selected by the command's row, command by command. -/
theorem encodesInRow (i : Instr) : Laws.EncodesInRow.Statement i := by
  cases i with
  | init iv key ctr => exact Laws.EncodesInRow.init iv key ctr
  | begin => exact Laws.EncodesInRow.begin
  | encb x => exact Laws.EncodesInRow.encb x
  | decb y => exact Laws.EncodesInRow.decb y
  | nkc ctr key => exact Laws.EncodesInRow.nkc ctr key
  | mix x ctr chain => exact Laws.EncodesInRow.mix x ctr chain
  | getbit b j => exact Laws.EncodesInRow.getbit b j
  | setbit b j => exact Laws.EncodesInRow.setbit b j
  | clrbit b j => exact Laws.EncodesInRow.clrbit b j
  | rdstat => exact Laws.EncodesInRow.rdstat

/-- The row of a command reads its operands back from its word (R62). -/
theorem read_encode {i : Instr} {r : OpcodeRow} (hr : opcodeRows[rowIndex i]? = some r) :
    r.read (encode i) = i := by
  cases i <;> cases hr <;> exact read_formatC ..

/-- R61, R65, R68: the word of a command decodes to the command. -/
theorem decode_encode (i : Instr) : decode (encode i) = .legal i := by
  obtain ⟨r, hr, hs⟩ := Option.map_eq_some_iff.mp (encodesInRow i)
  exact decode_eq_legal_iff.mpr ⟨r, List.mem_of_getElem? hr, hs, read_encode hr⟩

/-! ## The encoder inverts the decoder (R66) -/

/-- A field as the encoder fills it: with its operand where the opcode uses it, else with zero (R66). -/
def usedField {n : Nat} (used : Bool) (x : BitVec n) : BitVec n := if used then x else 0

theorem usedField_eq_self {n : Nat} {used : Bool} {x : BitVec n} (h : used = true ∨ x = 0) :
    usedField used x = x := by
  rcases h with rfl | rfl <;> simp [usedField]

/-- The word of a row's command: the row's opcode, and the fields of its operand columns. -/
theorem encode_operands : ∀ r ∈ opcodeRows, ∃ u, fieldUse (opField r.pattern) = some u ∧ ∀ i a b c,
    encode (r.operands i a b c) = formatC (opField r.pattern) (usedField u.idx i) (usedField u.a a)
      (usedField u.b b) (usedField u.c c) := by
  intro r hr
  fin_cases hr <;> exact ⟨_, rfl, fun _ _ _ _ => rfl⟩

/-- What a row reads from a word it selects encodes to the word: its should-be-zero fields are zero. -/
theorem encode_read {r : OpcodeRow} {w : CommandWord} (hr : r ∈ opcodeRows) (hs : r.selects w = true) :
    encode (r.read w) = w := by
  obtain ⟨hop, u, hu, hidx, ha, hb, hc⟩ := (selects_iff hr w).mp hs
  obtain ⟨u', hu', henc⟩ := encode_operands r hr
  rw [← hop, hu] at hu'
  obtain rfl := Option.some.inj hu'
  rw [OpcodeRow.read, henc, usedField_eq_self hidx, usedField_eq_self ha, usedField_eq_self hb,
    usedField_eq_self hc, ← hop, formatC_fields]

/-- R65, R66, R68: a word that decodes to a command is the word of that command. -/
theorem encode_of_decode {w : CommandWord} {i : Instr} (h : decode w = .legal i) : encode i = w := by
  obtain ⟨r, hr, hs, rfl⟩ := decode_eq_legal_iff.mp h
  exact encode_read hr hs

/-! ## How many commands there are -/

theorem encode_injective : Function.Injective encode := by
  intro i j h
  have hd := decode_encode i
  rw [h, decode_encode j] at hd
  exact (Decoded.legal.inj hd).symm

/-- The legal words are as many as the commands. -/
theorem card_legalWords : Nat.card { w : CommandWord // ∃ i, decode w = .legal i } = Nat.card Instr := by
  refine (Nat.card_eq_of_bijective (fun i : Instr => ⟨encode i, i, decode_encode i⟩) ⟨?_, ?_⟩).symm
  · exact fun i j h => encode_injective (congrArg Subtype.val h)
  · exact fun ⟨w, i, hi⟩ => ⟨i, Subtype.ext (encode_of_decode hi)⟩

/-- The operands of all commands: one summand for each row of the opcode map (R65). -/
abbrev Operands : Type :=
  (Byte × Byte × Byte) ⊕ Unit ⊕ Byte ⊕ Byte ⊕ (Byte × Byte) ⊕ (Byte × Byte × Byte) ⊕
    (Byte × BitIndex) ⊕ (Byte × BitIndex) ⊕ (Byte × BitIndex) ⊕ Unit

/-- A command is a row of the opcode map and its operands. -/
def instrEquivOperands : Instr ≃ Operands where
  toFun
    | .init iv key ctr => .inl (iv, key, ctr)
    | .begin => .inr (.inl ())
    | .encb x => .inr (.inr (.inl x))
    | .decb y => .inr (.inr (.inr (.inl y)))
    | .nkc ctr key => .inr (.inr (.inr (.inr (.inl (ctr, key)))))
    | .mix x ctr chain => .inr (.inr (.inr (.inr (.inr (.inl (x, ctr, chain))))))
    | .getbit b i => .inr (.inr (.inr (.inr (.inr (.inr (.inl (b, i)))))))
    | .setbit b i => .inr (.inr (.inr (.inr (.inr (.inr (.inr (.inl (b, i))))))))
    | .clrbit b i => .inr (.inr (.inr (.inr (.inr (.inr (.inr (.inr (.inl (b, i)))))))))
    | .rdstat => .inr (.inr (.inr (.inr (.inr (.inr (.inr (.inr (.inr ()))))))))
  invFun
    | .inl (iv, key, ctr) => .init iv key ctr
    | .inr (.inl ()) => .begin
    | .inr (.inr (.inl x)) => .encb x
    | .inr (.inr (.inr (.inl y))) => .decb y
    | .inr (.inr (.inr (.inr (.inl (ctr, key))))) => .nkc ctr key
    | .inr (.inr (.inr (.inr (.inr (.inl (x, ctr, chain)))))) => .mix x ctr chain
    | .inr (.inr (.inr (.inr (.inr (.inr (.inl (b, i))))))) => .getbit b i
    | .inr (.inr (.inr (.inr (.inr (.inr (.inr (.inl (b, i)))))))) => .setbit b i
    | .inr (.inr (.inr (.inr (.inr (.inr (.inr (.inr (.inl (b, i))))))))) => .clrbit b i
    | .inr (.inr (.inr (.inr (.inr (.inr (.inr (.inr (.inr ())))))))) => .rdstat
  left_inv i := by cases i <;> rfl
  right_inv o := by rcases o with _ | _ | _ | _ | _ | _ | _ | _ | _ | _ <;> rfl

theorem card_bitVec (n : Nat) : Nat.card (BitVec n) = 2 ^ n := by
  rw [Nat.card_congr BitVec.equivFin.toEquiv, Nat.card_fin]

theorem card_instr : Nat.card Instr = 33632770 := by
  rw [Nat.card_congr instrEquivOperands]
  simp only [Nat.card_sum, Nat.card_prod, card_bitVec, Nat.card_unique]
  norm_num

end Sys2Proof
end

section
/-! The statements about the encoding of the commands (30_encoding.md R61 to R68). -/

namespace Sys2Proof.Machine

/-- Settles O1: the command's own row selects its word, no other does, and it reads the operands back. -/
theorem decodeInvertsEncode : Obligations.DecodeInvertsEncode :=
  decode_encode

/-- Settles O2: the row that selects the word admits nothing but zero in the fields it does not read. -/
theorem encodeInvertsDecode : Obligations.EncodeInvertsDecode :=
  fun _ _ => encode_of_decode

/-- Settles O3: the mask and pattern columns say of the fields what the operand columns say. -/
theorem legalWordsAreTheWellFormedOnes : Obligations.LegalWordsAreTheWellFormedOnes :=
  decode_legal_iff_wellFormedWord

/-- Settles O4: a row selects words of its own opcode only, and no two rows have the same. -/
theorem atMostOneRowSelectsAWord : Obligations.AtMostOneRowSelectsAWord :=
  fun _ _ h₁ _ h₂ hs₁ hs₂ => congrArg OpcodeRow.mnemonic (row_eq_of_selects h₁ h₂ hs₁ hs₂)

/-- Settles O5: encoding is a bijection onto the legal words, and the commands are counted row by row. -/
theorem legalWordCount : Obligations.LegalWordCount :=
  card_legalWords.trans card_instr

/-- Settles O6: each word is the word of its command. -/
theorem decoderReadsPatternWords : Obligations.DecoderReadsPatternWords :=
  ⟨decode_encode (.init 0xB1 0xCB 0x35), decode_encode .begin, decode_encode (.encb 0x48),
    decode_encode (.decb 0xF9), decode_encode (.nkc 0x35 0xCB), decode_encode (.mix 0x48 0xBF 0xB1),
    decode_encode (.getbit 0x48 6), decode_encode (.setbit 0x00 7), decode_encode (.clrbit 0xFF 0),
    decode_encode .rdstat⟩

end Sys2Proof.Machine
end

section
/-! SUPPORT. The data byte of a command without a result, and the streams of ENCODE and DECODE on the engine
(30_encoding.md R64, R71; 45_stream_driver.md R130). -/

namespace Sys2Proof.Machine

/-! ## Data byte 0x00 (R64) -/

/-- INIT, BEGIN and every command that adds a fault entry answer data 0x00. -/
theorem Answers.responses_of_noResult {s t : State} {i : Instr} (h : Answers s i t)
    (hi : t.faults ≠ s.faults ∨ i = .begin ∨ ∃ iv key ctr, i = .init iv key ctr) :
    t.responses = s.responses ++ [t.status.byte ++ 0x00#8] := by
  cases h with
  | init => rfl
  | beginError => rfl
  | begin => rfl
  | encbError => rfl
  | decbError => rfl
  | encb => simp at hi
  | decb => simp at hi
  | stateless i d hs =>
    rcases hi with hf | rfl | ⟨iv, key, ctr, rfl⟩
    · exact absurd rfl hf
    · cases hs
    · cases hs

/-! ## One command of a sequence on the channel -/

/-- The step on the word of a command is the command. -/
theorem step_encode {s : State} {i : Instr} {is : List Instr} {rest : List Input} (hh : s.hosts ≤ 1)
    (hin : s.inbox = asInputs (i :: is) ++ rest) : step s = exec i (s.awaiting (asInputs is ++ rest)) :=
  (step_command hh hin).trans (runWord_of_legal (decode_encode i) _)

/-! ## A stream on the engine (R71, R130) -/

/-- `s` after stream commands that answered the data bytes `out`: what they leave in RCTR and CHAIN, and the inputs
still to come. -/
def State.streamed (s : State) (rest : List Input) (counter chain : Byte) (out : List Byte) : State :=
  { s with
    inbox := rest, rctr := .holding counter, chain := .holding chain
    responses := s.responses ++ out.map fun d => s.status.byte ++ d
    index := s.index + out.length }

/-- A step that answers one byte and then a run that answers others. -/
theorem runs_streamed_cons {n : Nat} {s u : State} {rest rest' : List Input} {r ch r' ch' d : Byte}
    {out : List Byte} (hstep : step s = .next (u.streamed rest r ch [d]))
    (hrun : Runs n (u.streamed rest r ch [d]) ((u.streamed rest r ch [d]).streamed rest' r' ch' out)) :
    Runs (n + 1) s (u.streamed rest' r' ch' (d :: out)) := by
  have hcons : (u.streamed rest r ch [d]).streamed rest' r' ch' out = u.streamed rest' r' ch' (d :: out) := by
    simp [State.streamed, Nat.add_assoc, Nat.add_comm]
  exact runs_succ.mpr ⟨_, hstep, hcons ▸ hrun⟩

/-- A stream is open on the one host's engine, with the key, RCTR and CHAIN given. -/
structure Streaming (s : State) (key r ch : Byte) : Prop where
  hosts : s.hosts ≤ 1
  opened : s.status.opened = true
  key : s.key.value = some key
  rctr : s.rctr.value = some r
  chain : s.chain.value = some ch

theorem Streaming.streamed {s : State} {key r ch : Byte} (h : Streaming s key r ch) (rest : List Input)
    (r' ch' : Byte) (out : List Byte) : Streaming (s.streamed rest r' ch' out) key r' ch' :=
  ⟨h.hosts, h.opened, h.key, rfl, rfl⟩

/-- With nothing more to answer the stream stays as it is. -/
theorem Streaming.streamed_nil {s : State} {key r ch : Byte} {rest : List Input} (h : Streaming s key r ch)
    (hin : s.inbox = rest) : s.streamed rest r ch [] = s := by
  simp [State.streamed, ← hin, ← (value_eq_some _ _).mp h.rctr, ← (value_eq_some _ _).mp h.chain]

/-- ENCB in an open stream: the output becomes CHAIN (R121). -/
theorem Streaming.step_encb {s : State} {key r ch x : Byte} {is : List Instr} {rest : List Input}
    (h : Streaming s key r ch) (hin : s.inbox = asInputs (.encb x :: is) ++ rest) :
    step s = .next (s.streamed (asInputs is ++ rest) (nextKeystreamCounter (increment r) key)
      (mixByte x r ch) [mixByte x r ch]) :=
  (step_encode h.hosts hin).trans (execEncb_of_values x h.opened h.rctr h.chain h.key)

/-- DECB in an open stream: the input becomes CHAIN (R122). -/
theorem Streaming.step_decb {s : State} {key r ch y : Byte} {is : List Instr} {rest : List Input}
    (h : Streaming s key r ch) (hin : s.inbox = asInputs (.decb y :: is) ++ rest) :
    step s = .next (s.streamed (asInputs is ++ rest) (nextKeystreamCounter (increment r) key)
      y [mixByte y r ch]) :=
  (step_encode h.hosts hin).trans (execDecb_of_values y h.opened h.rctr h.chain h.key)

/-- The byte commands of ENCODE compute the loop of `Encode` (R130). -/
theorem Streaming.runs_encbs {s : State} {key r ch : Byte} {m : List Byte} {rest : List Input}
    (h : Streaming s key r ch) (hin : s.inbox = asInputs (m.map .encb) ++ rest) :
    Runs m.length s (s.streamed rest (counterAfter key m.length r)
      ((ch :: encodeFrom key r ch m).getLast (List.cons_ne_nil _ _)) (encodeFrom key r ch m)) := by
  induction m generalizing s r ch with
  | nil => exact runs_zero.mpr (h.streamed_nil hin).symm
  | cons x m ih => exact runs_streamed_cons (h.step_encb hin) (ih (h.streamed _ _ _ _) rfl)

/-- The byte commands of DECODE compute the loop of `Decode` (R130). -/
theorem Streaming.runs_decbs {s : State} {key r ch : Byte} {ys : List Byte} {rest : List Input}
    (h : Streaming s key r ch) (hin : s.inbox = asInputs (ys.map .decb) ++ rest) :
    Runs ys.length s (s.streamed rest (counterAfter key ys.length r)
      ((ch :: ys).getLast (List.cons_ne_nil _ _)) (decodeFrom key r ch ys)) := by
  induction ys generalizing s r ch with
  | nil => exact runs_zero.mpr (h.streamed_nil hin).symm
  | cons y ys ih => exact runs_streamed_cons (h.step_decb hin) (ih (h.streamed _ _ _ _) rfl)

/-- `s` with STATUS as BEGIN leaves it (R120). -/
def State.opening (s : State) : State := { s with status := s.status.afterBegin }

/-- BEGIN with a key, as the first of a sequence of commands. -/
theorem step_begin {s : State} {iv key ctr : Byte} {is : List Instr} {rest : List Input} (hh : s.hosts ≤ 1)
    (hk : s.status.keyed = true) (hiv : s.iv.value = some iv) (hkey : s.key.value = some key)
    (hctr : s.ctr.value = some ctr) (hin : s.inbox = asInputs (.begin :: is) ++ rest) :
    step s = .next (s.opening.streamed (asInputs is ++ rest) (nextKeystreamCounter ctr key) iv [0x00#8]) :=
  (step_encode hh hin).trans (execBegin_of_values hk hiv hkey hctr)

/-- After BEGIN a stream is open. -/
theorem streaming_opening {s : State} {key : Byte} (hh : s.hosts ≤ 1) (hkey : s.key.value = some key)
    (rest : List Input) (r ch : Byte) (out : List Byte) :
    Streaming (s.opening.streamed rest r ch out) key r ch :=
  ⟨hh, rfl, hkey, rfl, rfl⟩

@[simp] theorem length_encodeFrom (key r ch : Byte) (m : List Byte) :
    (encodeFrom key r ch m).length = m.length := by
  induction m generalizing r ch with
  | nil => rfl
  | cons x m ih => simp [encodeFrom, ih]

@[simp] theorem length_decodeFrom (key r ch : Byte) (ys : List Byte) :
    (decodeFrom key r ch ys).length = ys.length := by
  induction ys generalizing r ch with
  | nil => rfl
  | cons y ys ih => simp [decodeFrom, ih]

/-- The commands of ENCODE compute `Encode` (R130). -/
theorem runs_encodeExpansion {s : State} {iv key ctr : Byte} {m : List Byte} {rest : List Input}
    (hh : s.hosts ≤ 1) (hk : s.status.keyed = true) (hiv : s.iv.value = some iv) (hkey : s.key.value = some key)
    (hctr : s.ctr.value = some ctr) (hin : s.inbox = asInputs (encodeExpansion m) ++ rest) :
    Runs (m.length + 1) s (s.opening.streamed rest (counterAfter key m.length (nextKeystreamCounter ctr key))
      ((iv :: encodeBytes iv key ctr m).getLast (List.cons_ne_nil _ _)) (0x00#8 :: encodeBytes iv key ctr m)) :=
  runs_streamed_cons (step_begin hh hk hiv hkey hctr hin)
    ((streaming_opening hh hkey _ _ _ _).runs_encbs rfl)

/-- The commands of DECODE compute `Decode` (R130). -/
theorem runs_decodeExpansion {s : State} {iv key ctr : Byte} {ys : List Byte} {rest : List Input}
    (hh : s.hosts ≤ 1) (hk : s.status.keyed = true) (hiv : s.iv.value = some iv) (hkey : s.key.value = some key)
    (hctr : s.ctr.value = some ctr) (hin : s.inbox = asInputs (decodeExpansion ys) ++ rest) :
    Runs (ys.length + 1) s (s.opening.streamed rest (counterAfter key ys.length (nextKeystreamCounter ctr key))
      ((iv :: ys).getLast (List.cons_ne_nil _ _)) (0x00#8 :: decodeBytes iv key ctr ys)) :=
  runs_streamed_cons (step_begin hh hk hiv hkey hctr hin)
    ((streaming_opening hh hkey _ _ _ _).runs_decbs rfl)

end Sys2Proof.Machine
end

section
/-! SUPPORT. The words that ENCODE and DECODE expand to, and the decimal numbers of assembler text (30_encoding.md R65,
R70, R71). -/

namespace Sys2Proof.Machine

/-! ## The words of the stream commands (R65) -/

theorem encode_begin : encode .begin = 0x20000000#32 := rfl

theorem encode_encb (x : Byte) : encode (.encb x) = 0x300000#24 ++ x := rfl

theorem encode_decb (y : Byte) : encode (.decb y) = 0x400000#24 ++ y := rfl

/-! ## Decimal numbers (R70) -/

/-- A digit of the library is a digit of the assembler, with the same value. -/
theorem decimalDigit_of_isDigit {ch : Char} (h : ch.isDigit = true) :
    decimalDigit ch = some (ch.toNat - '0'.toNat) :=
  if_pos (Char.isDigit_iff_toNat.mp h)

/-- A text of digits stands for the number the library gives it. -/
theorem digitsValue_of_isDigit {cs : List Char} (h : ∀ ch ∈ cs, ch.isDigit = true) (acc : Nat) :
    digitsValue 10 decimalDigit acc cs = some (Nat.ofDigitChars 10 cs acc) := by
  induction cs generalizing acc with
  | nil => rfl
  | cons ch cs ih =>
    obtain ⟨hch, hcs⟩ := List.forall_mem_cons.mp h
    rw [digitsValue, decimalDigit_of_isDigit hch]
    simp only [ih hcs, Nat.ofDigitChars_cons, Nat.mul_comm]

theorem isDigit_of_mem_decimalText {n : Nat} : ∀ ch ∈ Nat.toDigits 10 n, ch.isDigit = true :=
  fun _ => Nat.isDigit_of_mem_toDigits (by decide) (by decide)

/-- The decimal text of a number stands for the number. -/
theorem decimalNumber_toDigits (n : Nat) : decimalNumber (Nat.toDigits 10 n) = some n := by
  simp [decimalNumber, Nat.toDigits_ne_nil, digitsValue_of_isDigit isDigit_of_mem_decimalText,
    Nat.ofDigitChars_toDigits]

/-- A decimal text is no hexadecimal one: `x` is no digit. -/
theorem hexNumber_toDigits (least most n : Nat) : hexNumber least most (Nat.toDigits 10 n) = none := by
  unfold hexNumber
  split
  · rename_i digits hcs
    have hx := isDigit_of_mem_decimalText (n := n) 'x' (by simp [hcs])
    cases hx
  · rfl

end Sys2Proof.Machine
end

section
/-! The statements about responses without a result, the pseudo-instructions and decimal operands (30_encoding.md R64,
R70, R71; 45_stream_driver.md R130). -/

namespace Sys2Proof.Machine

/-- Settles O37: an error answers 0x00, and so does each command that has no result. -/
theorem commandsWithoutResultAnswerZero : Obligations.CommandsWithoutResultAnswerZero := by
  intro s t w rest hc h hi
  rcases step_command_next hc h with ⟨r, -, rfl⟩ | ⟨i, hd, hans⟩
  · rfl
  · exact hans.responses_of_noResult (by simpa [hd] using hi)

/-- Settles O49: BEGIN opens the stream, and the byte commands compute the loop of `Encode`. -/
theorem encodeCommandsComputeEncode : Obligations.EncodeCommandsComputeEncode := by
  intro s iv key ctr m rest hh hk hiv hkey hctr hin
  have hrun := runs_encodeExpansion hh hk hiv hkey hctr hin
  simpa [State.streamed, State.opening, Status.afterBegin, Reg.holding, encodeBytes] using hrun

/-- Settles O50: BEGIN opens the stream, and the byte commands compute the loop of `Decode`. -/
theorem decodeCommandsComputeDecode : Obligations.DecodeCommandsComputeDecode := by
  intro s iv key ctr ys rest hh hk hiv hkey hctr hin
  have hrun := runs_decodeExpansion hh hk hiv hkey hctr hin
  simpa [State.streamed, State.opening, Status.afterBegin, Reg.holding, decodeBytes] using hrun

/-- Settles O55: the decimal text of a number is no hexadecimal number and stands for the number. -/
theorem decimalOperandRanges : Obligations.DecimalOperandRanges := by
  intro n _
  rw [byteOperand, indexOperand, hexNumber_toDigits, decimalNumber_toDigits]
  exact ⟨rfl, rfl⟩

/-- Settles O56, by the word of BEGIN and of each byte command. -/
theorem pseudoInstructionExpansion : Obligations.PseudoInstructionExpansion := by
  constructor
  · intro m
    simp [AsmLine.words, encodeExpansion, encode_begin, Function.comp_def, encode_encb]
  · intro ys
    simp [AsmLine.words, decodeExpansion, encode_begin, Function.comp_def, encode_decb]

end Sys2Proof.Machine
end

section
/-! SUPPORT and the statement about INIT (41_cipher_state.md R80). -/

namespace Sys2Proof.Machine

/-- INIT completes in any state: the three registers are written, STATUS follows `afterInit`, the answer is 0x00. -/
theorem exec_init (iv key ctr : Byte) (s : State) :
    exec (.init iv key ctr) s = .next (respond 0x00
      { ((s.write .iv iv).write .key key).write .ctr ctr with status := s.status.afterInit }) := by
  simp only [exec, execInit, write_status]

/-- Settles O19: INIT writes, changes STATUS and answers once, and those operations change the fields stated only. -/
theorem initLoadsCipherState : Obligations.InitLoadsCipherState :=
  fun s iv key ctr => exec_init iv key ctr s

end Sys2Proof.Machine
end

section
/-! SUPPORT. The parity of counter evolution, where it undoes itself and where it collides, and what NKC
does (42_counter_evolution.md R92, R93). -/

namespace Sys2Proof.Machine

theorem getBit_zero_eq_iff (x y : Byte) : getBit x 0 = getBit y 0 ↔ x.toNat % 2 = y.toNat % 2 := by
  rw [getBit_zero, getBit_zero, decide_eq_decide]
  omega

/-- Bit 0 of the result: an odd counter keeps it, an even one takes it from the key. -/
theorem getBit_zero_nextKeystreamCounter (ctr key : Byte) :
    getBit (nextKeystreamCounter ctr key) 0 = (getBit ctr 0 || getBit key 0) := by
  rw [getBit_nextKeystreamCounter ctr key (by decide), getBit_zero ctr]
  rcases Nat.mod_two_eq_zero_or_one ctr.toNat with h | h <;> simp [h]

theorem getBit_zero_nextKeystreamCounter_of_odd {ctr : Byte} (key : Byte) (h : getBit ctr 0 = true) :
    getBit (nextKeystreamCounter ctr key) 0 = true := by
  rw [getBit_zero_nextKeystreamCounter, h, Bool.true_or]

theorem getBit_zero_nextKeystreamCounter_of_even {ctr : Byte} (key : Byte) (h : getBit ctr 0 = false) :
    getBit (nextKeystreamCounter ctr key) 0 = getBit key 0 := by
  rw [getBit_zero_nextKeystreamCounter, h, Bool.false_or]

/-- The same key gives the counter back where the parity is kept: the same bits are visited twice. -/
theorem nextKeystreamCounter_nextKeystreamCounter {ctr key : Byte}
    (h : getBit ctr 0 = true ∨ getBit key 0 = false) :
    nextKeystreamCounter (nextKeystreamCounter ctr key) key = ctr := by
  have hparity : (nextKeystreamCounter ctr key).toNat % 2 = ctr.toNat % 2 := by
    rw [← getBit_zero_eq_iff, getBit_zero_nextKeystreamCounter]
    rcases h with h | h <;> simp [h]
  refine byte_ext fun i hi => ?_
  rw [getBit_nextKeystreamCounter _ key hi, hparity, getBit_nextKeystreamCounter ctr key hi]
  by_cases hv : i % 2 = ctr.toNat % 2 <;> simp [hv]

/-- A zero key changes no bit. -/
theorem nextKeystreamCounter_zero_key (ctr : Byte) : nextKeystreamCounter ctr 0x00 = ctr := by
  simp [nextKeystreamCounter_eq_closedCounter, closedCounter]

/-- An odd key collides at the counters 0 and `key`: both keep the even bits of the key alone. -/
theorem nextKeystreamCounter_zero_eq_self {key : Byte} (h : getBit key 0 = true) :
    nextKeystreamCounter 0x00 key = nextKeystreamCounter key key := by
  have hodd : key.toNat % 2 = 1 := by simpa [getBit_zero] using h
  refine byte_ext fun i hi => ?_
  rw [getBit_nextKeystreamCounter _ key hi, getBit_nextKeystreamCounter key key hi, hodd]
  rcases Nat.mod_two_eq_zero_or_one i with hi2 | hi2 <;> simp [hi2, getBit]

/-- Counter evolution is injective exactly for an even key (R93 item 3). -/
theorem nextKeystreamCounter_injective_iff (key : Byte) :
    Function.Injective (fun ctr => nextKeystreamCounter ctr key) ↔ getBit key 0 = false := by
  constructor
  · intro hinj
    by_contra hkey
    have hodd : getBit key 0 = true := by simpa using hkey
    have hzero : 0x00 = key := hinj (nextKeystreamCounter_zero_eq_self hodd)
    rw [← hzero] at hodd
    cases hodd
  · intro hkey
    exact Function.LeftInverse.injective (g := fun ctr => nextKeystreamCounter ctr key)
      fun _ => nextKeystreamCounter_nextKeystreamCounter (.inr hkey)

/-- The results for an odd key are the odd bytes. -/
theorem image_nextKeystreamCounter_of_odd {key : Byte} (h : getBit key 0 = true) :
    (Finset.univ.image fun ctr : Byte => nextKeystreamCounter ctr key) =
      Finset.univ.filter fun b : Byte => getBit b 0 = true := by
  ext b
  simp only [Finset.mem_image, Finset.mem_univ, true_and, Finset.mem_filter]
  constructor
  · rintro ⟨ctr, rfl⟩
    rw [getBit_zero_nextKeystreamCounter, h, Bool.or_true]
  · intro hb
    exact ⟨nextKeystreamCounter b key, nextKeystreamCounter_nextKeystreamCounter (.inl hb)⟩

/-- Half of the bytes are odd, by counting them. -/
theorem card_odd_bytes : (Finset.univ.filter fun b : Byte => getBit b 0 = true).card = 128 := by rfl

/-- NKC completes in any state and only answers (R92). -/
theorem exec_nkc (ctr key : Byte) (s : State) :
    exec (.nkc ctr key) s = .next (respond (nextKeystreamCounter ctr key) s) := rfl

end Sys2Proof.Machine
end

section
/-! The statements about counter evolution and NKC (42_counter_evolution.md). -/

namespace Sys2Proof.Machine

/-- Settles O7: the bits the loop assigns, and the mask that has the same bits. -/
theorem counterEvolutionBits : Obligations.CounterEvolutionBits :=
  fun ctr key => ⟨fun _ hi => getBit_nextKeystreamCounter ctr key hi,
    nextKeystreamCounter_eq_closedCounter ctr key⟩

/-- Settles O8, item by item of R93: bit 0 of the result decides all but the listed values. -/
theorem counterEvolutionCornerCases : Obligations.CounterEvolutionCornerCases := by
  refine ⟨nextKeystreamCounter_zero_key, fun _ key => getBit_zero_nextKeystreamCounter_of_odd key,
    fun _ key => getBit_zero_nextKeystreamCounter_of_even key, by decide, by decide,
    nextKeystreamCounter_injective_iff, ?_,
    fun _ _ heven => nextKeystreamCounter_nextKeystreamCounter (.inr heven),
    by decide, by decide, by decide, by decide⟩
  rw [image_nextKeystreamCounter_of_odd (by decide), card_odd_bytes]

/-- Settles O23: NKC only answers, and its answer is the closed form. -/
theorem nkcAnswersCounterEvolution : Obligations.NkcAnswersCounterEvolution := by
  intro s ctr key
  rw [exec_nkc, nextKeystreamCounter_eq_closedCounter, respond]

end Sys2Proof.Machine
end

section
/-! SUPPORT. The mixer where its chain bits are those of one byte, twice, and under the bit reversal, and what MIX
does (43_byte_mixer.md R102 to R104). -/

namespace Sys2Proof.Machine

/-- The chain bits of a counter and a chain byte are the keystream: where they are the bits of `k`, the mixer adds
`k`. -/
theorem mixByte_eq_xor {ctr chain k : Byte} (h : ∀ i, i < 8 → chainBit ctr chain i = getBit k i) (x : Byte) :
    mixByte x ctr chain = x ^^^ k := by
  refine byte_ext fun i hi => ?_
  rw [getBit_mixByte x ctr chain hi, h i hi, getBit_xor]

/-- The closed form of R101, with the engine's own bit reversal. -/
theorem mixByte_eq_xor_keystream (x ctr chain : Byte) :
    mixByte x ctr chain = x ^^^ ((chain &&& ctr) ||| (rev8 chain &&& ~~~ctr)) := by
  rw [mixByte_eq_closedMix, closedMix, rev8_eq_reverse]

/-- The same keystream twice cancels (R103). -/
theorem mixByte_mixByte (x ctr chain : Byte) : mixByte (mixByte x ctr chain) ctr chain = x := by
  rw [mixByte_eq_xor_keystream, mixByte_eq_xor_keystream, BitVec.xor_assoc, BitVec.xor_self, BitVec.xor_zero]

/-! ## The corner cases (R104) -/

/-- Counter 0xFF: the chain bits are taken straight. -/
theorem mixByte_ctr_ones (x chain : Byte) : mixByte x 0xFF chain = x ^^^ chain := by
  have hones : ∀ i < 8, getBit 0xFF i = true := by decide
  exact mixByte_eq_xor (fun i hi => if_pos (hones i hi)) x

/-- Counter 0x00: the chain bits are taken mirrored. -/
theorem mixByte_ctr_zero (x chain : Byte) : mixByte x 0x00 chain = x ^^^ rev8 chain := by
  have hzero : ∀ i < 8, ¬ getBit 0x00 i = true := by decide
  exact mixByte_eq_xor (fun i hi => (if_neg (hzero i hi)).trans (getBit_rev8 chain hi).symm) x

/-- A palindromic chain byte is the keystream byte: straight and mirrored it has the same bits. -/
theorem mixByte_of_palindrome {chain : Byte} (h : rev8 chain = chain) (x ctr : Byte) :
    mixByte x ctr chain = x ^^^ chain := by
  refine mixByte_eq_xor (fun i hi => ?_) x
  have hmirror : getBit chain (7 - i) = getBit chain i := by rw [← getBit_rev8 chain hi, h]
  rw [chainBit, hmirror, ite_self]

/-- The zero chain byte is a palindrome, and adds nothing. -/
theorem mixByte_chain_zero (x ctr : Byte) : mixByte x ctr 0x00 = x :=
  (mixByte_of_palindrome (by decide) x ctr).trans BitVec.xor_zero

/-- What one bit of the result depends on. -/
theorem getBit_mixByte_congr {x x' ctr ctr' chain chain' : Byte} {i : Nat} (hi : i < 8)
    (hx : getBit x i = getBit x' i) (hctr : getBit ctr i = getBit ctr' i)
    (hchain : getBit chain i = getBit chain' i) (hmirror : getBit chain (7 - i) = getBit chain' (7 - i)) :
    getBit (mixByte x ctr chain) i = getBit (mixByte x' ctr' chain') i := by
  rw [getBit_mixByte x ctr chain hi, getBit_mixByte x' ctr' chain' hi, chainBit, chainBit, hx, hctr, hchain,
    hmirror]

/-- The chain bits of the reversed counter and chain byte are the mirrored chain bits. -/
theorem chainBit_rev8 (ctr chain : Byte) {i : Nat} (hi : i < 8) :
    chainBit (rev8 ctr) (rev8 chain) i = chainBit ctr chain (7 - i) := by
  have hmirror : 7 - i < 8 := by omega
  rw [chainBit, chainBit, getBit_rev8 ctr hi, getBit_rev8 chain hi, getBit_rev8 chain hmirror]

/-- The mixer commutes with the bit reversal. -/
theorem mixByte_rev8 (x ctr chain : Byte) :
    mixByte (rev8 x) (rev8 ctr) (rev8 chain) = rev8 (mixByte x ctr chain) := by
  refine byte_ext fun i hi => ?_
  have hmirror : 7 - i < 8 := by omega
  rw [getBit_mixByte _ _ _ hi, getBit_rev8 x hi, chainBit_rev8 ctr chain hi, getBit_rev8 _ hi,
    getBit_mixByte x ctr chain hmirror]

/-- MIX completes in any state and only answers (R102). -/
theorem exec_mix (x ctr chain : Byte) (s : State) :
    exec (.mix x ctr chain) s = .next (respond (mixByte x ctr chain) s) := rfl

end Sys2Proof.Machine
end

section
/-! The statements about the mixer and MIX (43_byte_mixer.md). -/

namespace Sys2Proof.Machine

/-- Settles O9: the bits the loop assigns, and the keystream byte that has the chain bits. -/
theorem mixerBits : Obligations.MixerBits :=
  fun x ctr chain => ⟨fun _ hi => getBit_mixByte x ctr chain hi, mixByte_eq_xor_keystream x ctr chain,
    rev8_eq_reverse chain⟩

/-- Settles O10: the keystream byte does not depend on the byte mixed. -/
theorem mixerIsSelfInverse : Obligations.MixerIsSelfInverse :=
  mixByte_mixByte

/-- Settles O11, item by item of R104; only the fixed bytes are computed. -/
theorem mixerCornerCases : Obligations.MixerCornerCases :=
  ⟨mixByte_ctr_ones, mixByte_ctr_zero, by decide, mixByte_chain_zero,
    fun x ctr _ hpalindrome => mixByte_of_palindrome hpalindrome x ctr, by decide, by decide,
    fun _ _ _ _ _ _ _ hi => getBit_mixByte_congr hi, mixByte_rev8⟩

/-- Settles O24: MIX only answers, and its answer is the closed form. -/
theorem mixAnswersMixedByte : Obligations.MixAnswersMixedByte := by
  intro s x ctr chain
  rw [exec_mix, mixByte_eq_closedMix, respond]

end Sys2Proof.Machine
end

section
/-! SUPPORT. The bit primitives at every index, in range or not, and what GETBIT, SETBIT and CLRBIT do
(44_bit_access.md R110 to R113). SetBit and ClearBit are the two cases of the assignment `b[i] <- v`. -/

namespace Sys2Proof.Machine

/-! ## The assignment at every index -/

theorem putBit_true (b : Byte) (i : Nat) : putBit b i true = setBit b i := rfl

theorem putBit_false (b : Byte) (i : Nat) : putBit b i false = clearBit b i := rfl

/-- An index out of range is a no-op (R111, R112). -/
theorem putBit_of_ge (b : Byte) {i : Nat} (v : Bool) (h : 8 ≤ i) : putBit b i v = b := by
  have hout : ¬ i ≤ 7 := by omega
  cases v
  · rw [putBit_false, clearBit, if_neg hout]
  · rw [putBit_true, setBit, if_neg hout]

/-- `getBit_putBit` without its bound on the index assigned: beyond bit 7 there is no bit to change. -/
theorem getBit_putBit_any (b : Byte) (i : Nat) (v : Bool) {j : Nat} (hj : j < 8) :
    getBit (putBit b i v) j = if j = i then v else getBit b j := by
  rcases Nat.lt_or_ge i 8 with hi | hi
  · exact getBit_putBit b i j v hi hj
  · have hji : j ≠ i := by omega
    rw [putBit_of_ge b v hi, if_neg hji]

theorem getBit_setBit (b : Byte) (i : Nat) {j : Nat} (hj : j < 8) :
    getBit (setBit b i) j = if j = i then true else getBit b j :=
  getBit_putBit_any b i true hj

theorem getBit_clearBit (b : Byte) (i : Nat) {j : Nat} (hj : j < 8) :
    getBit (clearBit b i) j = if j = i then false else getBit b j :=
  getBit_putBit_any b i false hj

/-! ## The commands -/

/-- GETBIT completes in any state and only answers (R110). -/
theorem exec_getbit (b : Byte) (i : BitIndex) (s : State) :
    exec (.getbit b i) s = .next (respond (getbitData b i) s) := rfl

/-- SETBIT completes in any state and only answers (R111). -/
theorem exec_setbit (b : Byte) (i : BitIndex) (s : State) :
    exec (.setbit b i) s = .next (respond (setBit b i.toNat) s) := rfl

/-- CLRBIT completes in any state and only answers (R112). -/
theorem exec_clrbit (b : Byte) (i : BitIndex) (s : State) :
    exec (.clrbit b i) s = .next (respond (clearBit b i.toNat) s) := rfl

end Sys2Proof.Machine
end

section
/-! The statements about the bit primitives and the bit-access commands (44_bit_access.md). -/

namespace Sys2Proof.Machine

/-- Settles O12: the bits after an assignment, at the index assigned, out of range and elsewhere. -/
theorem bitPrimitiveLaws : Obligations.BitPrimitiveLaws := by
  refine fun b => ⟨fun i hi => ?_, fun i hi _ => ⟨putBit_of_ge b true hi, putBit_of_ge b false hi⟩,
    fun i j _ hj hji => ?_⟩
  · have hi8 : i < 8 := by omega
    rw [getBit_setBit b i hi8, getBit_clearBit b i hi8, if_pos rfl, if_pos rfl]
    exact ⟨rfl, rfl⟩
  · have hj8 : j < 8 := by omega
    rw [getBit_setBit b i hj8, getBit_clearBit b i hj8, if_neg hji, if_neg hji]
    exact ⟨rfl, rfl⟩

/-- Settles O26: SETBIT only answers, and its data has the bits of `SetBit`. -/
theorem setbitForcesBitToOne : Obligations.SetbitForcesBitToOne :=
  fun s b i => ⟨setBit b i.toNat, fun _ hj => getBit_setBit b i.toNat hj, exec_setbit b i s⟩

/-- Settles O27: CLRBIT only answers, and its data has the bits of `ClearBit`. -/
theorem clrbitForcesBitToZero : Obligations.ClrbitForcesBitToZero :=
  fun s b i => ⟨clearBit b i.toNat, fun _ hj => getBit_clearBit b i.toNat hj, exec_clrbit b i s⟩

/-- Settles O25: GETBIT only answers, and `getbitData` is the data byte the statement writes out. -/
theorem getbitAnswersOneBit : Obligations.GetbitAnswersOneBit :=
  fun s b i => exec_getbit b i s

end Sys2Proof.Machine
end

section
/-! SUPPORT. `Encode` and `Decode` as functions, and what a run of stream commands answers
(45_stream_driver.md R130, R131). -/

namespace Sys2Proof.Machine

/-! ## The loops of `Encode` and `Decode` (R131) -/

/-- Both loops carry the ciphertext byte in the chain, so they mix each byte with the same keystream. -/
theorem decodeFrom_encodeFrom (key r ch : Byte) (m : List Byte) :
    decodeFrom key r ch (encodeFrom key r ch m) = m := by
  induction m generalizing r ch with
  | nil => rfl
  | cons x m ih => rw [encodeFrom, decodeFrom, mixByte_mixByte, ih]

/-- Encoding what was decoded gives back the byte that `Decode` put into the chain. -/
theorem encodeFrom_decodeFrom (key r ch : Byte) (ys : List Byte) :
    encodeFrom key r ch (decodeFrom key r ch ys) = ys := by
  induction ys generalizing r ch with
  | nil => rfl
  | cons y ys ih => rw [decodeFrom, encodeFrom, mixByte_mixByte, ih]

/-- No byte of the output depends on a later byte of the message. -/
theorem encodeFrom_prefix_append (key r ch : Byte) (m m' : List Byte) :
    encodeFrom key r ch m <+: encodeFrom key r ch (m ++ m') := by
  induction m generalizing r ch with
  | nil => exact List.nil_prefix
  | cons x m ih => exact (List.prefix_cons_inj _).mpr (ih _ _)

theorem decodeBytes_encodeBytes (iv key ctr : Byte) (m : List Byte) :
    decodeBytes iv key ctr (encodeBytes iv key ctr m) = m :=
  decodeFrom_encodeFrom ..

theorem length_encodeBytes (iv key ctr : Byte) (m : List Byte) :
    (encodeBytes iv key ctr m).length = m.length :=
  length_encodeFrom ..

/-! ## The answers of a stream on the engine -/

/-- `data` of a response is the byte it was delivered with (R63). -/
@[simp] theorem dataField_append (status d : Byte) : dataField (status ++ d) = d :=
  BitVec.extractLsb'_append_eq_right

/-- The data bytes answered between `s` and a later state `t`. -/
def answeredData (s t : State) : List Byte := (t.responses.drop s.responses.length).map dataField

theorem answeredData_opening_streamed (s : State) (rest : List Input) (counter chain : Byte) (out : List Byte) :
    answeredData s (s.opening.streamed rest counter chain out) = out := by
  simp [answeredData, State.streamed, State.opening, Function.comp_def]

/-- The answers of one stretch of a run, and then those of the next. -/
theorem answeredData_trans {s t u : State} (hst : s.responses <+: t.responses)
    (htu : t.responses <+: u.responses) : answeredData s u = answeredData s t ++ answeredData t u := by
  obtain ⟨out, ht⟩ := hst
  obtain ⟨out', hu⟩ := htu
  simp [answeredData, ← hu, ← ht]

theorem responses_prefix_opening_streamed (s : State) (rest : List Input) (counter chain : Byte)
    (out : List Byte) : s.responses <+: (s.opening.streamed rest counter chain out).responses :=
  List.prefix_append ..

theorem asInputs_append (is js : List Instr) : asInputs (is ++ js) = asInputs is ++ asInputs js :=
  List.map_append

end Sys2Proof.Machine
end

section
/-! The statements about BEGIN, ENCB, DECB and the streams they make (45_stream_driver.md). -/

namespace Sys2Proof.Machine

/-! ## The commands -/

/-- Settles O20: BEGIN reads its three values, and the counter it loads is the closed form. -/
theorem beginOpensStream : Obligations.BeginOpensStream := by
  intro s iv key ctr hk hiv hkey hctr
  rw [← nextKeystreamCounter_eq_closedCounter]
  exact execBegin_of_values hk hiv hkey hctr

/-- Settles O21: ENCB reads its three values, and output and counter are the closed forms. -/
theorem encbEncryptsOneByte : Obligations.EncbEncryptsOneByte := by
  intro s x r ch key ho hr hch hkey
  rw [← nextKeystreamCounter_eq_closedCounter, ← mixByte_eq_closedMix]
  exact execEncb_of_values x ho hr hch hkey

/-- Settles O22: DECB reads its three values, and output and counter are the closed forms. -/
theorem decbDecryptsOneByte : Obligations.DecbDecryptsOneByte := by
  intro s y r ch key ho hr hch hkey
  rw [← nextKeystreamCounter_eq_closedCounter, ← mixByte_eq_closedMix]
  exact execDecb_of_values y ho hr hch hkey

/-- Settles O48: both commands read values in a gated open stream, and then differ in the byte for CHAIN alone. -/
theorem directionOnlyDecidesChain : Obligations.DirectionOnlyDecidesChain := by
  intro s b hg ho
  obtain ⟨r, ch, key, hr, hch, hkey⟩ := hg.streamValues ho
  exact ⟨_, execEncb_of_values b ho hr hch hkey, execDecb_of_values b ho hr hch hkey⟩

/-! ## Streams -/

/-- Settles O51: the laws of the two loops, from the counter and chain byte that both start with. -/
theorem streamFunctionLaws : Obligations.StreamFunctionLaws :=
  fun iv key ctr m => ⟨decodeBytes_encodeBytes iv key ctr m, encodeFrom_decodeFrom _ _ _ m,
    length_encodeBytes iv key ctr m, length_decodeFrom _ _ _ m, encodeFrom_prefix_append _ _ _ m⟩

/-- Settles O52: ENCODE leaves the cipher state, so DECODE starts from it again and answers the message. -/
theorem engineRoundTrip : Obligations.EngineRoundTrip := by
  intro s iv key ctr m rest hh hk hiv hkey hctr hin
  rw [asInputs_append, List.append_assoc] at hin
  have hencode := runs_encodeExpansion hh hk hiv hkey hctr hin
  have hruns := runs_add hencode (runs_decodeExpansion hh hk hiv hkey hctr rfl)
  rw [length_encodeBytes, ← Nat.two_mul] at hruns
  refine ⟨_, hruns, rfl, rfl, ?_⟩
  refine (answeredData_trans (responses_prefix_opening_streamed ..)
    (responses_prefix_opening_streamed ..)).trans ?_
  rw [answeredData_opening_streamed, answeredData_opening_streamed, decodeBytes_encodeBytes]

/-- Settles O53: each run answers `Encode` of the cipher state, which the two states share. -/
theorem encodeStreamsAreDeterministic : Obligations.EncodeStreamsAreDeterministic := by
  intro s s' m rest rest' hh hh' hg _ hk hk' hsiv hskey hsctr hin hin'
  obtain ⟨iv, key, ctr, hiv, hkey, hctr⟩ := hg.cipherValues hk
  have hrun := runs_encodeExpansion hh hk hiv hkey hctr hin
  have hrun' := runs_encodeExpansion hh' hk' (hsiv ▸ hiv) (hskey ▸ hkey) (hsctr ▸ hctr) hin'
  exact ⟨_, _, hrun, hrun', (answeredData_opening_streamed ..).trans (answeredData_opening_streamed ..).symm⟩

end Sys2Proof.Machine
end

section
/-! SUPPORT and the statement about RDSTAT (46_status.md R140). -/

namespace Sys2Proof.Machine

/-- RDSTAT completes in any state and only answers, with STATUS as its data (R140). -/
theorem exec_rdstat (s : State) : exec .rdstat s = .next (respond s.status.byte s) := rfl

/-- Settles O28: RDSTAT only answers, and its data is the STATUS that the answer carries in its high byte. -/
theorem rdstatAnswersStatus : Obligations.RdstatAnswersStatus := by
  intro s
  rw [exec_rdstat, respond]

end Sys2Proof.Machine
end

section
/-! SUPPORT. The error a command raises, what it adds to the records, and runs in which no command raises one
(60_exceptions.md). -/

namespace Sys2Proof.Machine

/-! ## The error of each command (R150, R151, R155) -/

/-- The ProtocolError a command raises under STATUS (R151). -/
def protocolError : Instr → Status → Option ErrorCode
  | .begin, st => if st.keyed then none else some .noKey
  | .encb _, st => if st.opened then none else some .noStream
  | .decb _, st => if st.opened then none else some .noStream
  | _, _ => none

/-- The error a word raises under STATUS: decoding comes first (R155). -/
def wordError (w : CommandWord) (st : Status) : Option ErrorCode :=
  match decode w with
  | .illegal _ => some .illegalCommand
  | .legal i => protocolError i st

theorem wordError_of_illegal {w : CommandWord} {r : IllegalReason} (h : decode w = .illegal r) (st : Status) :
    wordError w st = some .illegalCommand := by
  simp [wordError, h]

theorem wordError_of_legal {w : CommandWord} {i : Instr} (h : decode w = .legal i) (st : Status) :
    wordError w st = protocolError i st := by
  simp [wordError, h]

theorem protocolError_of_stateless {i : Instr} (h : isStateless i = true) (st : Status) :
    protocolError i st = none := by
  cases i <;> simp [isStateless, protocolError] at h ⊢

/-- A word that fails the field rules is illegal (R66, R67). -/
theorem illegal_of_not_wellFormedWord {w : CommandWord} (h : wellFormedWord w = false) :
    ∃ r, decode w = .illegal r := by
  cases hd : decode w with
  | illegal r => exact ⟨r, rfl⟩
  | legal i => exact absurd (h.symm.trans (wellFormedWord_of_legal hd)) Bool.false_ne_true

/-- From `s` to `t` the command word `w` ended in the error `e`, or in none: STATUS follows an error, and the fault
record gets at most the one entry of that error (R152, R155). -/
def EndsIn (s t : State) (w : CommandWord) (e : Option ErrorCode) : Prop :=
  t.faults = s.faults ++ (e.map fun code => FaultEntry.mk code w s.index).toList ∧
    ∀ code, e = some code → t.status = s.status.afterError code

theorem endsIn_raiseError (code : ErrorCode) (w : CommandWord) (s : State) :
    EndsIn s (raiseError code w s) w (some code) :=
  ⟨rfl, fun _ h => Option.some.inj h ▸ rfl⟩

theorem endsIn_none {s t : State} (w : CommandWord) (h : t.faults = s.faults) : EndsIn s t w none :=
  ⟨by simp [h], nofun⟩

/-- A command ends in the ProtocolError of R151, or in none. -/
theorem Answers.endsIn {s t : State} {i : Instr} (h : Answers s i t) :
    EndsIn s t (encode i) (protocolError i s.status) := by
  cases h with
  | init => exact endsIn_none _ (by simp)
  | beginError hk => simpa [protocolError, hk] using endsIn_raiseError .noKey _ s
  | begin _ _ _ hk => simpa [protocolError, hk] using endsIn_none _ (by simp)
  | encbError x ho => simpa [protocolError, ho] using endsIn_raiseError .noStream _ s
  | encb _ _ _ _ ho => simpa [protocolError, ho] using endsIn_none _ (by simp)
  | decbError y ho => simpa [protocolError, ho] using endsIn_raiseError .noStream _ s
  | decb _ _ _ _ ho => simpa [protocolError, ho] using endsIn_none _ (by simp)
  | stateless i d hi => exact protocolError_of_stateless hi _ ▸ endsIn_none _ rfl

/-- A step on a command word ends in the word's error, or in none. -/
theorem endsIn_of_step {s t : State} {w : CommandWord} {rest : List Input} (hc : CommandNext s w rest)
    (h : step s = .next t) : EndsIn s t w (wordError w s.status) := by
  rcases step_command_next hc h with ⟨r, hd, rfl⟩ | ⟨i, hd, hans⟩
  · exact wordError_of_illegal hd _ ▸ endsIn_raiseError .illegalCommand w (s.awaiting rest)
  · have hends := hans.endsIn
    rw [encode_of_decode hd] at hends
    exact wordError_of_legal hd _ ▸ hends

/-- The one entry that was added names the error that set the STATUS bit. -/
theorem EndsIn.status_of_entry {s t : State} {w : CommandWord} {e : Option ErrorCode} (h : EndsIn s t w e)
    {code : ErrorCode} (ht : t.faults = s.faults ++ [⟨code, w, s.index⟩]) :
    t.status = s.status.afterError code := by
  obtain ⟨hfaults, hstatus⟩ := h
  have hentry := List.append_cancel_left (hfaults.symm.trans ht)
  cases e with
  | none => simp at hentry
  | some e => exact hstatus code (by simpa using hentry)

/-! ## The records only grow (R152, R63, D16) -/

/-- What was answered and recorded in `s` still stands in `t`, and the hosts are the same (log entry 7). -/
def RecordsExtend (s t : State) : Prop :=
  s.responses <+: t.responses ∧ s.faults <+: t.faults ∧ t.hosts = s.hosts

theorem Answers.hosts_eq {s t : State} {i : Instr} (h : Answers s i t) : t.hosts = s.hosts := by
  cases h <;> simp

/-- A command adds one response and the entry of its error. -/
theorem Answers.recordsExtend {s t : State} {i : Instr} (h : Answers s i t) : RecordsExtend s t := by
  obtain ⟨d, hresponses, -, -⟩ := h.answeredOnce
  obtain ⟨hfaults, -⟩ := h.endsIn
  exact ⟨hresponses ▸ List.prefix_append .., hfaults ▸ List.prefix_append .., h.hosts_eq⟩

/-! ## Runs that raise no error (R153) -/

/-- The next `n` commands take the engine from `s` to `t`, the inputs `rest` still to come, and none raises an error. -/
structure RunsCleanly (n : Nat) (s t : State) (rest : List Input) : Prop where
  runs : Runs n s t
  inbox : t.inbox = rest
  faults : t.faults = s.faults
  perr : t.status.perr = s.status.perr
  ill : t.status.ill = s.status.ill

theorem RunsCleanly.trans {m n : Nat} {s t u : State} {rest rest' : List Input} (h : RunsCleanly m s t rest)
    (h' : RunsCleanly n t u rest') : RunsCleanly (m + n) s u rest' :=
  ⟨runs_add h.runs h'.runs, h'.inbox, h'.faults.trans h.faults, h'.perr.trans h.perr, h'.ill.trans h.ill⟩

theorem runsCleanly_zero {s : State} {rest : List Input} (hin : s.inbox = rest) : RunsCleanly 0 s s rest :=
  ⟨runs_zero.mpr rfl, hin, rfl, rfl, rfl⟩

/-- The one host's engine with a key, as an INIT and every stream after it leave it (R35). -/
structure Ready (s : State) : Prop where
  hosts : s.hosts ≤ 1
  keyed : s.status.keyed = true
  gated : Gated s

/-- An INIT raises no error from any state, and makes the engine ready (R80). -/
theorem runsCleanly_init {s : State} {iv key ctr : Byte} {rest : List Input} (hh : s.hosts ≤ 1)
    (hin : s.inbox = asInputs [.init iv key ctr] ++ rest) : ∃ t, RunsCleanly 1 s t rest ∧ Ready t :=
  ⟨_, ⟨runs_succ.mpr ⟨_, (step_encode hh hin).trans (exec_init iv key ctr _), runs_zero.mpr rfl⟩,
    rfl, rfl, rfl, rfl⟩, hh, rfl, by simp [Gated]⟩

/-- A stream from a ready state raises no error and leaves the engine ready. -/
theorem Ready.runsCleanly_stream {s : State} {n : Nat} {rest : List Input} {counter chain : Byte}
    {out : List Byte} (h : Ready s) (hruns : Runs n s (s.opening.streamed rest counter chain out)) :
    ∃ t, RunsCleanly n s t rest ∧ Ready t := by
  obtain ⟨hcipher, -⟩ := h.gated
  exact ⟨_, ⟨hruns, rfl, rfl, rfl, rfl⟩, h.hosts, h.keyed, hcipher, fun _ => ⟨h.keyed, rfl, rfl⟩⟩

/-- A source call raises no error on a ready engine, and leaves it ready. -/
theorem Ready.runsCleanly_call {s : State} {c : SourceCall} {rest : List Input} (h : Ready s)
    (hin : s.inbox = asInputs c.commands ++ rest) : ∃ t, RunsCleanly c.commands.length s t rest ∧ Ready t := by
  obtain ⟨iv, key, ctr, hiv, hkey, hctr⟩ := h.gated.cipherValues h.keyed
  cases c with
  | init => exact runsCleanly_init h.hosts hin
  | encode m =>
    have hlen : (SourceCall.encode m).commands.length = m.length + 1 := congrArg (· + 1) (List.length_map _)
    rw [hlen]
    exact h.runsCleanly_stream (runs_encodeExpansion h.hosts h.keyed hiv hkey hctr hin)
  | decode ys =>
    have hlen : (SourceCall.decode ys).commands.length = ys.length + 1 := congrArg (· + 1) (List.length_map _)
    rw [hlen]
    exact h.runsCleanly_stream (runs_decodeExpansion h.hosts h.keyed hiv hkey hctr hin)

/-- The commands of a call are followed by those of the calls after it. -/
theorem asInputs_sourceCommands_cons (c : SourceCall) (calls : List SourceCall) (rest : List Input) :
    asInputs (sourceCommands (c :: calls)) ++ rest =
      asInputs c.commands ++ (asInputs (sourceCommands calls) ++ rest) := by
  rw [sourceCommands, List.flatMap_cons, asInputs_append, List.append_assoc, sourceCommands]

theorem length_sourceCommands_cons (c : SourceCall) (calls : List SourceCall) :
    (sourceCommands (c :: calls)).length = c.commands.length + (sourceCommands calls).length := by
  rw [sourceCommands, List.flatMap_cons, List.length_append, sourceCommands]

/-- No sequence of source calls raises an error on a ready engine. -/
theorem Ready.runsCleanly_calls {s : State} {calls : List SourceCall} {rest : List Input} (h : Ready s)
    (hin : s.inbox = asInputs (sourceCommands calls) ++ rest) :
    ∃ t, RunsCleanly (sourceCommands calls).length s t rest := by
  induction calls generalizing s with
  | nil => exact ⟨s, runsCleanly_zero hin⟩
  | cons c calls ih =>
    obtain ⟨t, hcall, ht⟩ := h.runsCleanly_call (hin.trans (asInputs_sourceCommands_cons c calls rest))
    obtain ⟨u, hcalls⟩ := ih ht hcall.inbox
    exact ⟨u, length_sourceCommands_cons c calls ▸ hcall.trans hcalls⟩

/-- No sequence of source calls that starts with Init raises an error, from any state of the one host's engine. -/
theorem runsCleanly_of_startsWithInit {s : State} {calls : List SourceCall} {rest : List Input} (hh : s.hosts ≤ 1)
    (hinit : startsWithInit calls = true) (hin : s.inbox = asInputs (sourceCommands calls) ++ rest) :
    ∃ t, RunsCleanly (sourceCommands calls).length s t rest := by
  match calls, hinit with
  | [], _ => exact ⟨s, runsCleanly_zero hin⟩
  | .init iv key ctr :: calls, _ =>
    obtain ⟨t, hcall, ht⟩ := runsCleanly_init hh (hin.trans (asInputs_sourceCommands_cons _ calls rest))
    obtain ⟨u, hcalls⟩ := ht.runsCleanly_calls hcall.inbox
    exact ⟨u, length_sourceCommands_cons _ calls ▸ hcall.trans hcalls⟩

end Sys2Proof.Machine
end

section
/-! The statements about errors and the records of a run (60_exceptions.md). -/

namespace Sys2Proof.Machine

/-- Settles O30: a word that fails the field rules is illegal, and the step on it is `raiseError`. -/
theorem illegalWordEffect : Obligations.IllegalWordEffect := by
  rintro s w rest ⟨hh, hi⟩ hw
  obtain ⟨r, hd⟩ := illegal_of_not_wellFormedWord hw
  exact (step_command hh hi).trans (runWord_of_illegal hd _)

/-- Settles O31: the step ends in the word's error or in none, and the error added is the one that set its bit. -/
theorem faultEntryOfEachCommand : Obligations.FaultEntryOfEachCommand := by
  refine ⟨fun s t w rest hc h => ?_, rfl, rfl, rfl⟩
  have hends := endsIn_of_step hc h
  have ⟨hfaults, _⟩ := hends
  refine ⟨?_, fun ht => ?_, fun ht => ?_, fun ht => ?_⟩
  · rw [hfaults]
    cases hd : decode w with
    | illegal r => simp [wordError_of_illegal hd]
    | legal i =>
      rw [wordError_of_legal hd]
      cases i with
      | begin => cases hk : s.status.keyed <;> simp [protocolError, hk]
      | encb x => cases ho : s.status.opened <;> simp [protocolError, ho]
      | decb y => cases ho : s.status.opened <;> simp [protocolError, ho]
      | _ => simp [protocolError]
  all_goals simp [hends.status_of_entry ht]

/-- Settles O41: waiting, reset, an illegal word and a command each keep what the records hold. -/
theorem recordsOnlyGrow : Obligations.RecordsOnlyGrow := by
  intro s t h
  rcases step_next h with ⟨-, rfl⟩ | ⟨p, rest, -, rfl⟩ | ⟨w, rest, r, -, -, rfl⟩ |
    ⟨w, rest, i, -, -, hexec⟩
  · exact ⟨List.prefix_rfl, List.prefix_rfl, rfl⟩
  · exact ⟨List.prefix_rfl, List.prefix_rfl, rfl⟩
  · exact ⟨List.prefix_append .., List.prefix_append .., rfl⟩
  · exact (exec_next hexec).recordsExtend

/-- Settles O54: the first call, if any, is an Init, and the engine stays ready from then on. -/
theorem sourceCallsRaiseNoError : Obligations.SourceCallsRaiseNoError := by
  intro s calls rest hh hinit hin
  obtain ⟨t, hruns, hinbox, hfaults, hperr, hill⟩ := runsCleanly_of_startsWithInit hh hinit hin
  exact ⟨t, hruns, hinbox, hfaults, hperr, hill⟩

/-- Settles O29: without a key or a stream the command is `raiseError`, on the word of the command. -/
theorem protocolErrorEffect : Obligations.ProtocolErrorEffect :=
  ⟨fun _ hk => execBegin_of_noKey hk,
    fun _ b ho => ⟨execEncb_of_noStream b ho, execDecb_of_noStream b ho⟩⟩

end Sys2Proof.Machine
end

section
/-! The statement about the first command after reset (70_reset_and_hazards.md R171). -/

namespace Sys2Proof.Machine

/-- Settles O34: reset leaves no key and no open stream, so BEGIN, ENCB and DECB are `raiseError` on the first index;
INIT and the stateless commands only answer. -/
theorem firstCommandAfterReset : Obligations.FirstCommandAfterReset := by
  intro i
  cases i with
  | begin => exact ⟨_, execBegin_of_noKey rfl, rfl, by simp, rfl⟩
  | encb x => exact ⟨_, execEncb_of_noStream x rfl, rfl, by simp, rfl⟩
  | decb y => exact ⟨_, execDecb_of_noStream y rfl, rfl, by simp, rfl⟩
  | init iv key ctr => exact ⟨_, exec_init iv key ctr _, rfl, by simp [State.reset], rfl⟩
  | nkc | mix | getbit | setbit | clrbit | rdstat => exact ⟨_, rfl, rfl, by simp [State.reset], rfl⟩

end Sys2Proof.Machine
end
